-- ==== Sys2Proof/Word.lean ====
section
/-! DEFINITION. The word types of the block: the units in which spec/ measures registers, memory
and host transactions (00_scope.md R6, R7; 30_encoding.md R60). -/

namespace Sys2Proof

/-- One byte: a memory cell, an input sample, a saturated channel (20_memory.md R40, 30_encoding.md R67). -/
abbrev Byte := BitVec 8

/-- A 32-bit word: `DIM_W`, `ACC_W`, and the ARGB output word (00_scope.md R4, 30_encoding.md R66). -/
abbrev Word := BitVec 32

/-- A 64-bit word: `IDX_W`, and one host register slot (00_scope.md R4, 10_state.md section 2). -/
abbrev DWord := BitVec 64

/-- A host transaction `{rw, reg[2:0], data[63:0]}` of 68 bits (30_encoding.md R60). -/
abbrev Transaction := BitVec 68

/-- A micro-operation code of 4 bits (30_encoding.md R69). -/
abbrev UopCode := BitVec 4

end Sys2Proof
end

