-- ==== Sys2Proof/Config.lean ====
section
/-! DEFINITION. What an implementation fixes: the open parameters of 00_scope.md R4, the hard-wired
constants of 30_encoding.md R68, what an unlisted byte of memory reads as, and the free value. -/

namespace Sys2Proof

/-- `HOST_ENDIAN` (00_scope.md R4, 20_memory.md R44): how an output word lies in byte-addressed memory. -/
inductive Endian where
  | little
  | big
  deriving DecidableEq, Repr

/-- The open parameters of 00_scope.md R4 that a step depends on. They stand in the state so that
every statement holds for every choice of them; no step changes them (log 5). -/
structure Params where
  /-- `AW`, the address width in bits; at most 64, since a base register fills one 64-bit slot. -/
  aw : Nat
  /-- `HOST_ENDIAN`. -/
  endian : Endian
  /-- `MEM_CAN_FAIL`: whether an access can be answered with an error. -/
  memCanFail : Bool
  deriving DecidableEq, Repr

/-- The defaults of 00_scope.md R4: `AW = 64`, `HOST_ENDIAN = little`, `MEM_CAN_FAIL = true`. -/
def Config.defaults : Params := { aw := 64, endian := .little, memCanFail := true }

/-- `K_PED`, the luma pedestal (30_encoding.md R68). -/
def Config.kPed : Int := 16
/-- `K_BIAS`, the chroma bias (R68). -/
def Config.kBias : Int := 128
/-- `K_Y`, the luma gain (R68). -/
def Config.kY : Int := 1192
/-- `K_RV`, V into red (R68). -/
def Config.kRV : Int := 1634
/-- `K_GV`, V into green; the product is subtracted (R68). -/
def Config.kGV : Int := 833
/-- `K_GU`, U into green; the product is subtracted (R68). -/
def Config.kGU : Int := 400
/-- `K_BU`, U into blue (R68). -/
def Config.kBU : Int := 2066
/-- `FRAC`, the fractional bits that DESCALE shifts out (R68). -/
def Config.frac : Nat := 10
/-- `ROUND_BIAS`, added after the shift (R68). 90_conflicts.md C1 keeps the value 2 (log 19). -/
def Config.roundBias : Int := 2
/-- `K_ALPHA`, opaque alpha in place (R68). -/
def Config.kAlpha : Word := 0xFF000000#32

/-- What a byte of memory that no entry lists reads as. The spec gives memory no contents
(10_state.md R30). DESIGN CHOICE, unsafe: log 6. -/
def Config.unlistedByte : Byte := 0#8

/-- The free value: the byte that draw `n` leaves at address `a` where the spec says a byte holds an
unspecified value (60_exceptions.md R140, 70_reset_and_hazards.md R157). It has no body, so nothing
can be proved of its value (log 10). -/
opaque Config.freeByte (n a : Nat) : Byte

end Sys2Proof
end

