-- ==== Sys2Proof/Syntax.lean ====
section
/-! DEFINITION. The operations of the block, one constructor per row of spec/opcode_table.json:
seventeen host operations (30_encoding.md R62) and sixteen micro-operations (R69). A host operation
carries every bit of its transaction that its row leaves open, the ignored ones too, so that no bit
of an encoding is lost. -/

namespace Sys2Proof

inductive Instr where
  /-- `RDREG.WIDTH`: read register 0; `data` is ignored (10_state.md R19). -/
  | rdregWidth (data : DWord)
  /-- `RDREG.HEIGHT`: read register 1 (R19). -/
  | rdregHeight (data : DWord)
  /-- `RDREG.YUV_BASE`: read register 2 (R19). -/
  | rdregYuvBase (data : DWord)
  /-- `RDREG.YUV_LEN`: read register 3 (R19). -/
  | rdregYuvLen (data : DWord)
  /-- `RDREG.RGB_BASE`: read register 4 (R19). -/
  | rdregRgbBase (data : DWord)
  /-- `RDREG.RGB_CAP`: read register 5 (R19). -/
  | rdregRgbCap (data : DWord)
  /-- `RDREG.CTRL`: read register 6, which has no storage and reads 0 (R19). -/
  | rdregCtrl (data : DWord)
  /-- `RDREG.STATUS`: read register 7 (R19). -/
  | rdregStatus (data : DWord)
  /-- `WRREG.WIDTH`: write register 0 (10_state.md R20). -/
  | wrregWidth (data : DWord)
  /-- `WRREG.HEIGHT`: write register 1 (R20). -/
  | wrregHeight (data : DWord)
  /-- `WRREG.YUV_BASE`: write register 2 (R20). -/
  | wrregYuvBase (data : DWord)
  /-- `WRREG.YUV_LEN`: write register 3 (R20). -/
  | wrregYuvLen (data : DWord)
  /-- `WRREG.RGB_BASE`: write register 4 (R20). -/
  | wrregRgbBase (data : DWord)
  /-- `WRREG.RGB_CAP`: write register 5 (R20). -/
  | wrregRgbCap (data : DWord)
  /-- `CONVERT`: write `CTRL` with `START = 1`; bits 63:1 are ignored (41_converter_command.md R85). -/
  | convert (reserved : BitVec 63)
  /-- `NOPCMD`: write `CTRL` with `START = 0`; bits 63:1 are ignored (R20). -/
  | nopcmd (reserved : BitVec 63)
  /-- `WRSTATUS`: write `STATUS`, which is read-only (R20). -/
  | wrstatus (data : DWord)
  /-- `CHECK`, code 0x0 (41_converter_command.md R87). -/
  | check
  /-- `INIT`, code 0x1 (R88). -/
  | init
  /-- `ROWSTART`, code 0x2 (42_traversal_and_fetch.md R101). -/
  | rowstart
  /-- `LDY`, code 0x3 (R102). -/
  | ldy
  /-- `LDVU`, code 0x4 (R103). -/
  | ldvu
  /-- `PED`, code 0x5 (43_pixel_arithmetic.md R115). -/
  | ped
  /-- `BIAS`, code 0x6 (R116). -/
  | bias
  /-- `MATR`, code 0x7 (R117). -/
  | matr
  /-- `MATG`, code 0x8 (R118). -/
  | matg
  /-- `MATB`, code 0x9 (R119). -/
  | matb
  /-- `DESCALE`, code 0xA (R120). -/
  | descale
  /-- `CLAMP`, code 0xB (40_clamp.md R80, R121). -/
  | clamp
  /-- `PACK`, code 0xC (R122). -/
  | pack
  /-- `STW`, code 0xD (R123). -/
  | stw
  /-- `ADV`, code 0xE (42_traversal_and_fetch.md R105). -/
  | adv
  /-- `FINISH`, code 0xF (41_converter_command.md R89). -/
  | finish
  deriving DecidableEq, Repr

/-- Whether an operation is one the host can issue: the seventeen rows of format `HT`. A
micro-operation has no bus presence (30_encoding.md R69). -/
def Instr.isHost : Instr → Bool
  | .rdregWidth _ | .rdregHeight _ | .rdregYuvBase _ | .rdregYuvLen _ => true
  | .rdregRgbBase _ | .rdregRgbCap _ | .rdregCtrl _ | .rdregStatus _ => true
  | .wrregWidth _ | .wrregHeight _ | .wrregYuvBase _ | .wrregYuvLen _ => true
  | .wrregRgbBase _ | .wrregRgbCap _ | .convert _ | .nopcmd _ | .wrstatus _ => true
  | .check | .init | .rowstart | .ldy | .ldvu | .ped | .bias | .matr => false
  | .matg | .matb | .descale | .clamp | .pack | .stw | .adv | .finish => false

end Sys2Proof
end

