-- ==== Sys2Proof/WellFormed.lean ====
section
/-! DEFINITION. Two checks. `Instr.wellFormed`: software presents zeros in the bits that the block
ignores (30_encoding.md R60 "software presents 0", R64 "software should write 0"). No transaction is
illegal (R64): a term that fails this check still encodes, decodes and runs, and no meaning reads
it. `wellFormedBytes`: a list of bytes is the container of a 68-bit transaction or of a 4-bit
micro-operation code (log 2). -/

namespace Sys2Proof

/-- The ignored bits are presented as zero (30_encoding.md R60, R64). -/
def Instr.wellFormed : Instr → Bool
  | .rdregWidth d | .rdregHeight d | .rdregYuvBase d | .rdregYuvLen d => d == 0#64
  | .rdregRgbBase d | .rdregRgbCap d | .rdregCtrl d | .rdregStatus d => d == 0#64
  | .wrregWidth _ | .wrregHeight _ | .wrregYuvBase _ => true
  | .wrregYuvLen _ | .wrregRgbBase _ | .wrregRgbCap _ => true
  | .convert r => r == 0#63
  | .nopcmd r => r == 0#63
  | .wrstatus d => d == 0#64
  | .check | .init | .rowstart | .ldy | .ldvu | .ped | .bias | .matr => true
  | .matg | .matb | .descale | .clamp | .pack | .stw | .adv | .finish => true

/-- Nine bytes hold a 68-bit transaction and one byte a 4-bit code, least significant byte first, the
bits above zero (log 2). -/
def wellFormedBytes : List Byte → Bool
  | [b] => b.extractLsb' 4 4 == 0#4
  | [_, _, _, _, _, _, _, _, b] => b.extractLsb' 4 4 == 0#4
  | _ => false

end Sys2Proof
end

