-- ==== Sys2Proof/Decode.lean ====
section
/-! DEFINITION. The decode of host transactions (30_encoding.md R60 to R62) and of micro-operation
codes (R69), the container of bytes in which this model carries both (log 2), and the encoder. -/

namespace Sys2Proof

/-- Why a list of bytes is no encoding. No host transaction is illegal (30_encoding.md R64): these
name the byte lists that hold neither a 68-bit transaction nor a 4-bit code. -/
inductive DecodeError where
  /-- Neither one byte nor nine. -/
  | badLength
  /-- One byte whose bits 7:4 are not zero: no 4-bit code. -/
  | uopPadding
  /-- Nine bytes whose bits 71:68 are not zero: no 68-bit transaction. -/
  | transactionPadding
  deriving DecidableEq, Repr

/-- `T[67:64]`: `rw` and the register number, one header digit (30_encoding.md R60, R61). -/
def headerOf (t : Transaction) : BitVec 4 := t.extractLsb' 64 4

/-- `T[63:0]`, the write data (R60). -/
def dataOf (t : Transaction) : DWord := t.extractLsb' 0 64

/-- The transaction of a header digit and its data (R60). -/
def transactionOf (header : BitVec 4) (data : DWord) : Transaction :=
  (header.setWidth 68 <<< 64) ||| data.setWidth 68

/-- `CTRL` write data: bit 0 is `START`, bits 63:1 are reserved and ignored (10_state.md R17). -/
def decodeCtrl (data : DWord) : Instr :=
  if data.getLsbD 0 then .convert (data.extractLsb' 1 63) else .nopcmd (data.extractLsb' 1 63)

/-- The decode of a host transaction, total on all 2^68 values (30_encoding.md R61, R62). -/
def decodeTransaction (t : Transaction) : Instr :=
  match (headerOf t).toNat with
  | 0x0 => .rdregWidth (dataOf t)
  | 0x1 => .rdregHeight (dataOf t)
  | 0x2 => .rdregYuvBase (dataOf t)
  | 0x3 => .rdregYuvLen (dataOf t)
  | 0x4 => .rdregRgbBase (dataOf t)
  | 0x5 => .rdregRgbCap (dataOf t)
  | 0x6 => .rdregCtrl (dataOf t)
  | 0x7 => .rdregStatus (dataOf t)
  | 0x8 => .wrregWidth (dataOf t)
  | 0x9 => .wrregHeight (dataOf t)
  | 0xA => .wrregYuvBase (dataOf t)
  | 0xB => .wrregYuvLen (dataOf t)
  | 0xC => .wrregRgbBase (dataOf t)
  | 0xD => .wrregRgbCap (dataOf t)
  | 0xE => decodeCtrl (dataOf t)
  | _ => .wrstatus (dataOf t)

/-- The sixteen micro-operation codes, all assigned (30_encoding.md R69). -/
def decodeUop (c : UopCode) : Instr :=
  match c.toNat with
  | 0x0 => .check
  | 0x1 => .init
  | 0x2 => .rowstart
  | 0x3 => .ldy
  | 0x4 => .ldvu
  | 0x5 => .ped
  | 0x6 => .bias
  | 0x7 => .matr
  | 0x8 => .matg
  | 0x9 => .matb
  | 0xA => .descale
  | 0xB => .clamp
  | 0xC => .pack
  | 0xD => .stw
  | 0xE => .adv
  | _ => .finish

/-- The transaction held by nine bytes, least significant byte first (log 2). -/
def joinTransaction (b0 b1 b2 b3 b4 b5 b6 b7 b8 : Byte) : Transaction :=
  transactionOf (b8.extractLsb' 0 4)
    (b0.setWidth 64 ||| (b1.setWidth 64 <<< 8) ||| (b2.setWidth 64 <<< 16) ||| (b3.setWidth 64 <<< 24) |||
     (b4.setWidth 64 <<< 32) ||| (b5.setWidth 64 <<< 40) ||| (b6.setWidth 64 <<< 48) |||
     (b7.setWidth 64 <<< 56))

/-- The decoder, total on any bytes: one byte is a micro-operation code, nine bytes a host
transaction, anything else is rejected by name. -/
def decode : List Byte → Except DecodeError Instr
  | [b] =>
    if b.extractLsb' 4 4 = 0#4 then .ok (decodeUop (b.extractLsb' 0 4)) else .error .uopPadding
  | [b0, b1, b2, b3, b4, b5, b6, b7, b8] =>
    if b8.extractLsb' 4 4 = 0#4 then
      .ok (decodeTransaction (joinTransaction b0 b1 b2 b3 b4 b5 b6 b7 b8))
    else .error .transactionPadding
  | _ => .error .badLength

/-- The nine bytes of a transaction, least significant first, bits 71:68 zero (log 2). -/
def transactionBytes (t : Transaction) : List Byte :=
  [t.extractLsb' 0 8, t.extractLsb' 8 8, t.extractLsb' 16 8, t.extractLsb' 24 8,
   t.extractLsb' 32 8, t.extractLsb' 40 8, t.extractLsb' 48 8, t.extractLsb' 56 8,
   (t.extractLsb' 64 4).setWidth 8]

/-- The one byte of a micro-operation code, bits 7:4 zero (log 2). -/
def uopBytes (c : UopCode) : List Byte := [c.setWidth 8]

/-- `CTRL` write data of its 63 reserved bits and `START` (10_state.md R17). -/
def ctrlData (reserved : BitVec 63) (start : Bool) : DWord :=
  (reserved.setWidth 64 <<< 1) ||| (BitVec.ofBool start).setWidth 64

/-- A host operation's transaction (30_encoding.md R61, R62), or a micro-operation's code (R69), as
bytes. -/
def encode : Instr → List Byte
  | .rdregWidth d => transactionBytes (transactionOf 0x0#4 d)
  | .rdregHeight d => transactionBytes (transactionOf 0x1#4 d)
  | .rdregYuvBase d => transactionBytes (transactionOf 0x2#4 d)
  | .rdregYuvLen d => transactionBytes (transactionOf 0x3#4 d)
  | .rdregRgbBase d => transactionBytes (transactionOf 0x4#4 d)
  | .rdregRgbCap d => transactionBytes (transactionOf 0x5#4 d)
  | .rdregCtrl d => transactionBytes (transactionOf 0x6#4 d)
  | .rdregStatus d => transactionBytes (transactionOf 0x7#4 d)
  | .wrregWidth d => transactionBytes (transactionOf 0x8#4 d)
  | .wrregHeight d => transactionBytes (transactionOf 0x9#4 d)
  | .wrregYuvBase d => transactionBytes (transactionOf 0xA#4 d)
  | .wrregYuvLen d => transactionBytes (transactionOf 0xB#4 d)
  | .wrregRgbBase d => transactionBytes (transactionOf 0xC#4 d)
  | .wrregRgbCap d => transactionBytes (transactionOf 0xD#4 d)
  | .convert r => transactionBytes (transactionOf 0xE#4 (ctrlData r true))
  | .nopcmd r => transactionBytes (transactionOf 0xE#4 (ctrlData r false))
  | .wrstatus d => transactionBytes (transactionOf 0xF#4 d)
  | .check => uopBytes 0x0#4
  | .init => uopBytes 0x1#4
  | .rowstart => uopBytes 0x2#4
  | .ldy => uopBytes 0x3#4
  | .ldvu => uopBytes 0x4#4
  | .ped => uopBytes 0x5#4
  | .bias => uopBytes 0x6#4
  | .matr => uopBytes 0x7#4
  | .matg => uopBytes 0x8#4
  | .matb => uopBytes 0x9#4
  | .descale => uopBytes 0xA#4
  | .clamp => uopBytes 0xB#4
  | .pack => uopBytes 0xC#4
  | .stw => uopBytes 0xD#4
  | .adv => uopBytes 0xE#4
  | .finish => uopBytes 0xF#4

/-- `n` bytes of a number, least significant first. -/
def bytesOfNat : Nat → Nat → List Byte
  | 0, _ => []
  | n + 1, w => BitVec.ofNat 8 w :: bytesOfNat n (w / 256)

/-- The container of a table row's word: one byte for the 4-bit rows, nine for the 68-bit rows. -/
def tableBytes (nbits w : Nat) : List Byte :=
  bytesOfNat (if nbits ≤ 8 then 1 else if nbits ≤ 72 then 9 else (nbits + 7) / 8) w

/-- The instruction the decoder reads from a word numbered as spec/opcode_table.json numbers it. -/
def decodeTableWord (nbits w : Nat) : Option Instr :=
  match decode (tableBytes nbits w) with
  | .ok i => some i
  | .error _ => none

end Sys2Proof
end

