-- ==== Sys2Proof/Machine/State.lean ====
section
/-! DEFINITION. The state of one instance of the block (10_state.md R10 to R31), the memory it
masters, what the outside does next, the reasons a step can stop, and the state after reset. -/

namespace Sys2Proof.Machine

/-- Why the machine stops with a fault. Neither can arise in a call, whose checks exclude both
(41_converter_command.md R87); they name a micro-operation or a host access outside any call. -/
inductive Fault where
  /-- Raised by a read, a write or a host access at an address at or above `2^AW`, which does not
  exist (20_memory.md R40). Safe: the spec gives such an access no effect (log 13). -/
  | noSuchAddress
  /-- Raised by a word write at an address that is no multiple of 4, which the block never issues
  (20_memory.md R45). Safe: the spec gives it no effect (log 13). -/
  | misalignedWrite
  deriving DecidableEq, Repr

/-- Why the model gives a step no meaning. -/
inductive Refusal where
  /-- Raised by an arm of `exec` for an operation that has no meaning yet. Safe. -/
  | notModelled (mnemonic : String)
  /-- Raised by an otherwise acceptable `CONVERT` whose two views overlap: "gives a call with
  overlapping views no meaning (refuse)" (20_memory.md R50, U4). Safe (log 11). -/
  | overlappingViews
  /-- Raised by a host access during a call that 20_memory.md R53 forbids: "a model gives the host
  no such move" (U5). Safe (log 12). -/
  | hostBreaksCall
  deriving DecidableEq, Repr

/-- The six operand registers (10_state.md R11 to R16). A base register holds `AW` bits; it stands
in a 64-bit slot whose bits at and above `AW` a write leaves zero. -/
structure OperandRegs where
  /-- `WIDTH`, register 0. -/
  width : Word
  /-- `HEIGHT`, register 1. -/
  height : Word
  /-- `YUV_BASE`, register 2. -/
  yuvBase : DWord
  /-- `YUV_LEN`, register 3. -/
  yuvLen : DWord
  /-- `RGB_BASE`, register 4. -/
  rgbBase : DWord
  /-- `RGB_CAP`, register 5. -/
  rgbCap : DWord
  deriving DecidableEq, Repr

/-- `STATUS`, register 7 (10_state.md R18). The reserved bits have no storage: they read 0 (log 17). -/
structure Status where
  /-- Bit 0, `BUSY`. -/
  busy : Bool
  /-- Bit 1, `DONE`. -/
  done : Bool
  /-- Bit 2, `ERR`. -/
  err : Bool
  /-- Bits 6:4, `ECODE`. -/
  ecode : BitVec 3
  deriving DecidableEq, Repr

/-- The sequencer position `pc = (I, X, YP, UVP)` and the frame size `FS` (10_state.md R21). -/
structure Position where
  /-- `I`, the luma row. -/
  i : Word
  /-- `X`, the column. -/
  x : Word
  /-- `YP`, the pixel's index in the frame. -/
  yp : DWord
  /-- `UVP`, the chroma cursor. -/
  uvp : DWord
  /-- `FS`, the frame size. -/
  fs : DWord
  deriving DecidableEq, Repr

/-- The pixel accumulator (10_state.md R22). The `s32` fields are read as two's complement (log 16). -/
structure Accumulator where
  /-- `acc.Y`, the luma byte as read. -/
  y : Byte
  /-- `acc.V`, the V byte as read; with `acc.U` the chroma latch (R23). -/
  v : Byte
  /-- `acc.U`, the U byte as read. -/
  u : Byte
  /-- `acc.YQ`, `y'`. -/
  yq : Word
  /-- `acc.VQ`, `v'`. -/
  vq : Word
  /-- `acc.UQ`, `u'`. -/
  uq : Word
  /-- `acc.RPRE`. -/
  rpre : Word
  /-- `acc.GPRE`. -/
  gpre : Word
  /-- `acc.BPRE`. -/
  bpre : Word
  /-- `acc.RS`. -/
  rs : Word
  /-- `acc.GS`. -/
  gs : Word
  /-- `acc.BS`. -/
  bs : Word
  /-- `acc.R8`. -/
  r8 : Byte
  /-- `acc.G8`. -/
  g8 : Byte
  /-- `acc.B8`. -/
  b8 : Byte
  /-- `acc.WORD`. -/
  word : Word
  deriving DecidableEq, Repr

/-- Platform memory (20_memory.md R40): the bytes that differ from `Config.unlistedByte`, by strictly
rising address. -/
abbrev Memory := List Host.Cell

/-- A word write the block has issued and the memory has not yet answered (10_state.md R27). -/
structure Posted where
  addr : Nat
  word : Word
  deriving DecidableEq, Repr

/-- The memory's answer to one access of the block (20_memory.md R43, R44, 10_state.md R31). -/
inductive Answer where
  /-- The access succeeds at once. -/
  | ok
  /-- The access is answered with an error; possible only when `MEM_CAN_FAIL`. -/
  | error
  /-- A write is answered later and is outstanding until then (R27); a read waits for its byte. -/
  | later
  deriving DecidableEq, Repr

/-- What the outside does next (00_scope.md R5; log 1). -/
inductive Input where
  /-- The host presents a transaction (30_encoding.md R60), always a host operation (R62). No input
  is a micro-operation: "the host cannot issue one" (R69). -/
  | transaction (t : Transaction)
  /-- The sequencer gets its turn: a pixel step when `BUSY = 1`, else nothing (R5). -/
  | turn
  /-- The memory answers the oldest outstanding write (10_state.md R27). -/
  | memAnswer
  /-- The host stores a byte of memory (20_memory.md R53; one byte at a time, log 23). -/
  | hostStore (a : Nat) (b : Byte)
  /-- The host loads a byte of memory (R53; one byte at a time, log 23). -/
  | hostLoad (a : Nat)
  /-- `reset` is applied and released (70_reset_and_hazards.md R155, R157). -/
  | reset
  deriving DecidableEq, Repr

structure State where
  /-- The operand registers. -/
  regs : OperandRegs
  /-- `STATUS`. -/
  status : Status
  /-- The sequencer position and the frame size. -/
  pos : Position
  /-- The pixel accumulator. -/
  acc : Accumulator
  /-- Platform memory. -/
  mem : Memory
  /-- The word writes issued and not yet answered, oldest first (10_state.md R27). -/
  outstanding : List Posted
  /-- MODEL: the memory's answers to the accesses to come; none listed means success (log 8). -/
  answers : List Answer
  /-- MODEL: what the outside does next (log 1). -/
  inputs : List Input
  /-- MODEL: the value the last operation that returns one returned (log 4). -/
  ret : DWord
  /-- MODEL: a micro-operation code laid on the bench, to be run on its own by the next step. The
  hardware has no such thing (30_encoding.md R69): no input and no step lays one there, and
  `State.withFetchWord` alone does, to show the rule of one micro-operation (log 3). -/
  bench : Option UopCode
  /-- MODEL: how many draws of free values there have been (log 10). -/
  draws : Nat
  /-- MODEL: the open parameters of 00_scope.md R4; no step changes them (log 5). -/
  params : Params
  deriving DecidableEq, Repr

/-- The outcome of one step of this machine. -/
abbrev StepOutcome := Host.Outcome State Fault Refusal

/-- Operand registers after reset: all 0 (10_state.md R30). -/
def resetRegs : OperandRegs :=
  { width := 0#32, height := 0#32, yuvBase := 0#64, yuvLen := 0#64, rgbBase := 0#64, rgbCap := 0#64 }

/-- `STATUS` after reset: `0x00` (10_state.md R30). -/
def resetStatus : Status := { busy := false, done := false, err := false, ecode := 0#3 }

/-- The sequencer position after reset: unspecified in 10_state.md R30. DESIGN CHOICE zero (log 7). -/
def resetPosition : Position := { i := 0#32, x := 0#32, yp := 0#64, uvp := 0#64, fs := 0#64 }

/-- The accumulators after reset: unspecified in 10_state.md R30. DESIGN CHOICE zero (log 7). -/
def resetAccumulator : Accumulator :=
  { y := 0#8, v := 0#8, u := 0#8, yq := 0#32, vq := 0#32, uq := 0#32,
    rpre := 0#32, gpre := 0#32, bpre := 0#32, rs := 0#32, gs := 0#32, bs := 0#32,
    r8 := 0#8, g8 := 0#8, b8 := 0#8, word := 0#32 }

/-- The machine right after reset (10_state.md R30, 70_reset_and_hazards.md R155): idle, operand
registers 0, `STATUS = 0x00`, no access outstanding, memory with nothing listed. -/
def State.reset : State :=
  { regs := resetRegs, status := resetStatus, pos := resetPosition, acc := resetAccumulator,
    mem := [], outstanding := [], answers := [], inputs := [], ret := 0#64, bench := none, draws := 0,
    params := Config.defaults }

end Sys2Proof.Machine
end

