-- ==== Sys2Proof/Machine/Flags.lean ====
section
/-! DEFINITION. The block has no arithmetic flags (10_state.md R25). Its flag-like state is `STATUS`
(R18); the predicates of R26 are computed from the position and stored nowhere. -/

namespace Sys2Proof.Machine

/-- The 64-bit value of `STATUS` (10_state.md R18): BUSY bit 0, DONE bit 1, ERR bit 2, ECODE bits 6:4;
bits 3 and 63:7 read 0. -/
def statusWord (t : Status) : DWord :=
  (t.ecode ++ 0#1 ++ BitVec.ofBool t.err ++ BitVec.ofBool t.done ++ BitVec.ofBool t.busy).setWidth 64

/-- `STATUS` of a running call, `0x01` (41_converter_command.md R85). -/
def statusBusy : Status := { busy := true, done := false, err := false, ecode := 0#3 }

/-- `STATUS` of a completed call, `0x02` (41_converter_command.md R89). -/
def statusDone : Status := { busy := false, done := true, err := false, ecode := 0#3 }

/-- `STATUS` after an error of either kind (60_exceptions.md R138, R139). -/
def statusError (code : BitVec 3) : Status := { busy := false, done := false, err := true, ecode := code }

/-- `XEVEN := (X[0] = 0)` (10_state.md R26). -/
def xEven (s : State) : Bool := s.pos.x.getLsbD 0 == false

/-- `X < W − 1` in unbounded integers, the negation of `ROWEND` on every position of a call
(42_traversal_and_fetch.md R105, 10_state.md R26). -/
def beforeRowEnd (s : State) : Bool := decide (s.pos.x.toNat + 1 < s.regs.width.toNat)

end Sys2Proof.Machine
end

