-- ==== Sys2Proof/Machine/Operands.lean ====
section
/-! DEFINITION. How operations name their operands: the 64-bit slots of the host registers
(10_state.md R19, R20) and the effective addresses of the block's accesses (R102, R103, R123), with
the two views they lie in (20_memory.md R41, R42). -/

namespace Sys2Proof.Machine

/-- A 32-bit register takes the low bits of the data (10_state.md R20). -/
def slot32 (d : DWord) : Word := d.extractLsb' 0 32

/-- A base register takes the low `AW` bits of the data (10_state.md R13, R20). -/
def slotAddress (s : State) (d : DWord) : DWord := BitVec.ofNat 64 (d.toNat % 2 ^ s.params.aw)

/-- A 32-bit register reads with zeros above its width (10_state.md R19). -/
def slotRead32 (r : Word) : DWord := r.setWidth 64

/-- `YUV_BASE + YP`, the luma byte of `LDY` (42_traversal_and_fetch.md R102). -/
def lumaAddress (s : State) : Nat := s.regs.yuvBase.toNat + s.pos.yp.toNat

/-- `YUV_BASE + UVP`, the V byte of `LDVU`; the U byte is the next one (R103). -/
def chromaAddress (s : State) : Nat := s.regs.yuvBase.toNat + s.pos.uvp.toNat

/-- `RGB_BASE + 4·YP`, the word of `STW` (43_pixel_arithmetic.md R123). -/
def outputAddress (s : State) : Nat := s.regs.rgbBase.toNat + 4 * s.pos.yp.toNat

/-- Whether an address lies in `[YUV_BASE, YUV_BASE + YUV_LEN)` (20_memory.md R43). -/
def inInputView (s : State) (a : Nat) : Bool :=
  decide (s.regs.yuvBase.toNat ≤ a) && decide (a < s.regs.yuvBase.toNat + s.regs.yuvLen.toNat)

/-- Whether an address lies in `[RGB_BASE, RGB_BASE + 4·RGB_CAP)` (20_memory.md R44). -/
def inOutputView (s : State) (a : Nat) : Bool :=
  decide (s.regs.rgbBase.toNat ≤ a) && decide (a < s.regs.rgbBase.toNat + 4 * s.regs.rgbCap.toNat)

/-- Whether the byte ranges of the two views are disjoint (20_memory.md R50). -/
def viewsDisjoint (s : State) : Bool :=
  decide (s.regs.yuvBase.toNat + s.regs.yuvLen.toNat ≤ s.regs.rgbBase.toNat) ||
  decide (s.regs.rgbBase.toNat + 4 * s.regs.rgbCap.toNat ≤ s.regs.yuvBase.toNat)

/-- `W·H` in unbounded integers (41_converter_command.md R87). -/
def frameSize (s : State) : Nat := s.regs.width.toNat * s.regs.height.toNat

end Sys2Proof.Machine
end

