-- ==== Sys2Proof/Machine/Ops.lean ====
section
/-! DEFINITION. The shared operations: memory with its one canonical form (20_memory.md R40), the
read and write primitives with the memory's answers (R43, R44), the entry of the two errors
(60_exceptions.md R138, R139), and the parts of `CONVERT` and `ADV` that are micro-operations of
their own (41_converter_command.md R87 to R89, 42_traversal_and_fetch.md R101). There is no return
from an error: it stays in `STATUS` until the next `CONVERT` or reset (60_exceptions.md R141). -/

namespace Sys2Proof.Machine

/-! ### Memory -/

/-- The byte at an address: the listed one, else `Config.unlistedByte`. -/
def Memory.read : Memory → Nat → Byte
  | [], _ => Config.unlistedByte
  | c :: m, a => if c.1 = a then c.2 else Memory.read m a

/-- Memory without an entry at an address. -/
def Memory.erase : Memory → Nat → Memory
  | [], _ => []
  | c :: m, a => if c.1 = a then Memory.erase m a else c :: Memory.erase m a

/-- An entry put in at its place by rising address. -/
def Memory.insert : Memory → Host.Cell → Memory
  | [], e => [e]
  | c :: m, e => if e.1 < c.1 then e :: c :: m else c :: Memory.insert m e

/-- Writing one byte; a byte equal to `Config.unlistedByte` is not listed. -/
def Memory.write (m : Memory) (a : Nat) (b : Byte) : Memory :=
  if b = Config.unlistedByte then Memory.erase m a else Memory.insert (Memory.erase m a) (a, b)

/-- Whether every address of a memory lies above a bound and the addresses rise strictly. -/
def Memory.risingFrom : Option Nat → Memory → Bool
  | _, [] => true
  | none, c :: m => Memory.risingFrom (some c.1) m
  | some k, c :: m => decide (k < c.1) && Memory.risingFrom (some c.1) m

/-- The canonical form: addresses strictly rising, no entry equal to what an unlisted address reads as. -/
def Memory.wf (m : Memory) : Bool :=
  Memory.risingFrom none m && m.all (fun c => c.2 != Config.unlistedByte)

/-- The four bytes of a word in ascending address order (20_memory.md R44). -/
def wordByte (e : Endian) (w : Word) (k : Nat) : Byte :=
  match e with
  | .little => w.extractLsb' (8 * k) 8
  | .big => w.extractLsb' (8 * (3 - k)) 8

/-- A word stored at an address, as one access (20_memory.md R44, R46). -/
def Memory.writeWord (m : Memory) (e : Endian) (a : Nat) (w : Word) : Memory :=
  Memory.write (Memory.write (Memory.write (Memory.write m a (wordByte e w 0)) (a + 1) (wordByte e w 1))
    (a + 2) (wordByte e w 2)) (a + 3) (wordByte e w 3)

/-- Free bytes, those of draw `n`, at the `k` addresses from `a` on (60_exceptions.md R140; log 10). -/
def Memory.unspecify (m : Memory) (n a : Nat) : Nat → Memory
  | 0 => m
  | k + 1 => Memory.write (Memory.unspecify m n a k) (a + k) (Config.freeByte n (a + k))

/-! ### The memory's answers -/

/-- The memory's answer to the next access: the first listed one, success when none is listed; an
error is possible only when `MEM_CAN_FAIL` (00_scope.md R4; log 8). -/
def answer (s : State) : Answer :=
  match s.answers with
  | [] => .ok
  | .error :: _ => if s.params.memCanFail then .error else .ok
  | a :: _ => a

/-- The state once that answer has been given. -/
def answered (s : State) : State := { s with answers := s.answers.tail }

/-- What an access of the block comes to. -/
inductive Reply (α : Type) where
  /-- It is performed, or, for a write, issued. -/
  | ok (v : α) (s : State)
  /-- It is answered with an error (20_memory.md R43, R44). -/
  | error (s : State)
  /-- There is no such access (log 13). -/
  | fault (f : Fault)

/-- `MemRead(a, 1)` (00_scope.md R7, 20_memory.md R43). -/
def memRead (a : Nat) (s : State) : Reply Byte :=
  if a < 2 ^ s.params.aw then
    if answer s = .error then .error (answered s) else .ok (s.mem.read a) (answered s)
  else .fault .noSuchAddress

/-- `MemWrite(a, 4, w)` (00_scope.md R7, 20_memory.md R44, R45). A write answered later is
outstanding until it is (10_state.md R27; log 9). -/
def memWrite (a : Nat) (w : Word) (s : State) : Reply Unit :=
  if a % 4 ≠ 0 then .fault .misalignedWrite
  else if 2 ^ s.params.aw < a + 4 then .fault .noSuchAddress
  else
    match answer s with
    | .error => .error (answered s)
    | .later => .ok () { answered s with outstanding := s.outstanding ++ [{ addr := a, word := w }] }
    | .ok => .ok () { answered s with mem := s.mem.writeWord s.params.endian a w }

/-- Waiting until every outstanding write has been performed, oldest first, one answer each; the
answer `later` is waited for, since the memory answers every access (70_reset_and_hazards.md R167). -/
def awaitWrites : List Posted → State → Reply Unit
  | [], s => .ok () { s with outstanding := [] }
  | p :: ps, s =>
    if answer s = .error then .error (answered s)
    else awaitWrites ps { answered s with mem := s.mem.writeWord s.params.endian p.addr p.word }

/-! ### Entry of an error -/

/-- The error entry both kinds share: `STATUS <- { BUSY = 0, DONE = 0, ERR = 1, ECODE = code }`
(60_exceptions.md R138, R139). -/
def raiseError (code : BitVec 3) (s : State) : State := { s with status := statusError code }

/-- `ECODE` of a bridge failure, `E_BRIDGE` (60_exceptions.md R136). -/
def codeBridge : BitVec 3 := 5#3

/-- Each of the `W·H` words of the output view holds an unspecified value (60_exceptions.md R140,
70_reset_and_hazards.md R157). -/
def unspecifyOutput (s : State) : State :=
  { s with mem := s.mem.unspecify s.draws s.regs.rgbBase.toNat (4 * frameSize s), draws := s.draws + 1 }

/-- `raise BridgeFailure` (60_exceptions.md R139, R140): no access stays outstanding, the output view
is unspecified word by word, the code is 5. -/
def raiseBridge (s : State) : State :=
  raiseError codeBridge { unspecifyOutput s with outstanding := [] }

/-- What follows an access: go on, or end the call as a bridge failure (20_memory.md R56), or stop. -/
def Reply.andThen {α : Type} (r : Reply α) (k : α → State → StepOutcome) : StepOutcome :=
  match r with
  | .ok v s => k v s
  | .error s => .next (raiseBridge s)
  | .fault f => .fault f

/-! ### Parts of a call -/

/-- The four tests of `CHECK` in their order, over unbounded integers (41_converter_command.md R87). -/
def checkCode (s : State) : BitVec 3 :=
  if s.regs.yuvBase = 0#64 ∨ s.regs.rgbBase = 0#64 then 1#3
  else if s.regs.width.toNat = 0 ∨ s.regs.height.toNat = 0 ∨
      s.regs.width.toNat % 2 = 1 ∨ s.regs.height.toNat % 2 = 1 then 2#3
  else if s.regs.yuvLen.toNat ≠ frameSize s + frameSize s / 2 ∨ s.regs.rgbCap.toNat ≠ frameSize s then 3#3
  else if s.regs.rgbBase.toNat % 4 ≠ 0 ∨ 2 ^ s.params.aw < s.regs.yuvBase.toNat + s.regs.yuvLen.toNat ∨
      2 ^ s.params.aw < s.regs.rgbBase.toNat + 4 * s.regs.rgbCap.toNat then 4#3
  else 0#3

/-- `FS <- W·H`, `I <- 0`, `YP <- 0` (41_converter_command.md R88). -/
def initFrame (s : State) : State :=
  { s with pos := { s.pos with fs := BitVec.ofNat 64 (frameSize s), i := 0#32, yp := 0#64 } }

/-- `UVP <- FS + (I >> 1)·W`, `X <- 0` (42_traversal_and_fetch.md R101). -/
def rowStart (s : State) : State :=
  { s with pos := { s.pos with
      uvp := BitVec.ofNat 64 (s.pos.fs.toNat + s.pos.i.toNat / 2 * s.regs.width.toNat), x := 0#32 } }

/-- Wait for every write, then `STATUS <- 0x02` (41_converter_command.md R89); an awaited write
answered with an error ends the call as a bridge failure instead. The position and the accumulators
keep what the last pixel left and stand so while idle: DESIGN CHOICE (log 22), since U13 of
93_implementation_defined.md lets them have any value then; only `I`, `X` and `YP` of the terminal
position are stated (42_traversal_and_fetch.md R105). -/
def finishCall (s : State) : StepOutcome :=
  (awaitWrites s.outstanding s).andThen fun _ t => .next { t with status := statusDone }

end Sys2Proof.Machine
end

