-- ==== Sys2Proof/Machine/Command.lean ====
section
/-! DEFINITION. `CONVERT` and the micro-operations `CHECK`, `INIT`, `FINISH`
(41_converter_command.md R85 to R92). -/

namespace Sys2Proof.Machine

/-- `CHECK` reads the operand registers, writes none, and returns its code (R87; log 4). -/
def execCheck (s : State) : StepOutcome := .next { s with ret := (checkCode s).setWidth 64 }

/-- `INIT` (R88). -/
def execInit (s : State) : StepOutcome := .next (initFrame s)

/-- `FINISH` (R89). -/
def execFinish (s : State) : StepOutcome := finishCall s

/-- `CONVERT` (R85): ignored while `BUSY = 1` (R92); a failed check raises the precondition
violation (60_exceptions.md R138) and touches nothing else (R86); overlapping views are no launch
(20_memory.md R50; log 11); otherwise the call starts, with `INIT` and the first `ROWSTART` in the
same step. -/
def execConvert (s : State) : StepOutcome :=
  if s.status.busy then .next s
  else if checkCode s ≠ 0#3 then .next (raiseError (checkCode s) s)
  else if viewsDisjoint s then .next (rowStart (initFrame { s with status := statusBusy }))
  else .refused .overlappingViews

end Sys2Proof.Machine
end

