-- ==== Sys2Proof/Machine/HostPort.lean ====
section
/-! DEFINITION. The register port: `RDREG`, `WRREG`, `NOPCMD`, `WRSTATUS` (10_state.md R19, R20). -/

namespace Sys2Proof.Machine

/-- A read answers with a 64-bit value and changes nothing else (10_state.md R19; log 4). -/
def returning (v : DWord) (s : State) : StepOutcome := .next { s with ret := v }

/-- An operand write has no effect while `BUSY = 1` (10_state.md R20). -/
def unlessBusy (r : OperandRegs) (s : State) : StepOutcome :=
  .next (if s.status.busy then s else { s with regs := r })

/-- `RDREG.WIDTH` (10_state.md R19). -/
def execRdregWidth (s : State) : StepOutcome := returning (slotRead32 s.regs.width) s

/-- `RDREG.HEIGHT` (R19). -/
def execRdregHeight (s : State) : StepOutcome := returning (slotRead32 s.regs.height) s

/-- `RDREG.YUV_BASE` (R19). -/
def execRdregYuvBase (s : State) : StepOutcome := returning s.regs.yuvBase s

/-- `RDREG.YUV_LEN` (R19). -/
def execRdregYuvLen (s : State) : StepOutcome := returning s.regs.yuvLen s

/-- `RDREG.RGB_BASE` (R19). -/
def execRdregRgbBase (s : State) : StepOutcome := returning s.regs.rgbBase s

/-- `RDREG.RGB_CAP` (R19). -/
def execRdregRgbCap (s : State) : StepOutcome := returning s.regs.rgbCap s

/-- `RDREG.CTRL`: the command port has no storage and reads 0 (R17, R19). -/
def execRdregCtrl (s : State) : StepOutcome := returning 0#64 s

/-- `RDREG.STATUS` (R18, R19). -/
def execRdregStatus (s : State) : StepOutcome := returning (statusWord s.status) s

/-- `WRREG.WIDTH` (10_state.md R20). -/
def execWrregWidth (d : DWord) (s : State) : StepOutcome :=
  unlessBusy { s.regs with width := slot32 d } s

/-- `WRREG.HEIGHT` (R20). -/
def execWrregHeight (d : DWord) (s : State) : StepOutcome :=
  unlessBusy { s.regs with height := slot32 d } s

/-- `WRREG.YUV_BASE` (R20). -/
def execWrregYuvBase (d : DWord) (s : State) : StepOutcome :=
  unlessBusy { s.regs with yuvBase := slotAddress s d } s

/-- `WRREG.YUV_LEN` (R20). -/
def execWrregYuvLen (d : DWord) (s : State) : StepOutcome :=
  unlessBusy { s.regs with yuvLen := d } s

/-- `WRREG.RGB_BASE` (R20). -/
def execWrregRgbBase (d : DWord) (s : State) : StepOutcome :=
  unlessBusy { s.regs with rgbBase := slotAddress s d } s

/-- `WRREG.RGB_CAP` (R20). -/
def execWrregRgbCap (d : DWord) (s : State) : StepOutcome :=
  unlessBusy { s.regs with rgbCap := d } s

/-- `NOPCMD`: a `CTRL` write with `START = 0` has no effect (R20). -/
def execNopcmd (s : State) : StepOutcome := .next s

/-- `WRSTATUS`: `STATUS` is read-only, the write has no effect (R20). -/
def execWrstatus (s : State) : StepOutcome := .next s

end Sys2Proof.Machine
end

