-- ==== Sys2Proof/Machine/Pixel.lean ====
section
/-! DEFINITION. The datapath micro-operations `PED`, `BIAS`, `MATR`, `MATG`, `MATB`, `DESCALE`,
`CLAMP`, `PACK`, `STW` (43_pixel_arithmetic.md R115 to R123, 40_clamp.md R80) and the closed form of
one pixel (R126). Arithmetic is exact over the integers and then stored in 32 bits; on the values of
a call nothing is lost (R124). -/

namespace Sys2Proof.Machine

/-- An exact result stored in an `s32` accumulator (00_scope.md R7, 10_state.md R22). -/
def toAcc (v : Int) : Word := BitVec.ofInt 32 v

/-- The Clamp unit on 32 bits (40_clamp.md R80): saturation, never a wrap. -/
def clamp8 (x : Word) : Byte :=
  if x.toInt < 0 then 0#8 else if x.toInt > 255 then 255#8 else x.extractLsb' 0 8

/-- One channel of `DESCALE`: arithmetic shift by 10, then the bias (43_pixel_arithmetic.md R120). -/
def descale (c : Word) : Word := toAcc ((c.sshiftRight Config.frac).toInt + Config.roundBias)

/-- The ARGB word of three channels (30_encoding.md R66, 43_pixel_arithmetic.md R122). -/
def packWord (r g b : Byte) : Word :=
  Config.kAlpha ||| (r.setWidth 32 <<< 16) ||| (g.setWidth 32 <<< 8) ||| b.setWidth 32

/-- `PED` (43_pixel_arithmetic.md R115). -/
def execPed (s : State) : StepOutcome :=
  .next { s with acc := { s.acc with yq := toAcc (max 0 ((s.acc.y.toNat : Int) - Config.kPed)) } }

/-- `BIAS` (R116). -/
def execBias (s : State) : StepOutcome :=
  .next { s with acc := { s.acc with
    vq := toAcc ((s.acc.v.toNat : Int) - Config.kBias), uq := toAcc ((s.acc.u.toNat : Int) - Config.kBias) } }

/-- `MATR` (R117). -/
def execMatr (s : State) : StepOutcome :=
  .next { s with acc := { s.acc with
    rpre := toAcc (Config.kY * s.acc.yq.toInt + Config.kRV * s.acc.vq.toInt) } }

/-- `MATG` (R118). -/
def execMatg (s : State) : StepOutcome :=
  .next { s with acc := { s.acc with
    gpre := toAcc (Config.kY * s.acc.yq.toInt - Config.kGV * s.acc.vq.toInt
      - Config.kGU * s.acc.uq.toInt) } }

/-- `MATB` (R119). -/
def execMatb (s : State) : StepOutcome :=
  .next { s with acc := { s.acc with
    bpre := toAcc (Config.kY * s.acc.yq.toInt + Config.kBU * s.acc.uq.toInt) } }

/-- `DESCALE` on the three channels (R120). -/
def execDescale (s : State) : StepOutcome :=
  .next { s with acc := { s.acc with
    rs := descale s.acc.rpre, gs := descale s.acc.gpre, bs := descale s.acc.bpre } }

/-- `CLAMP` on the three channels (40_clamp.md R80, 43_pixel_arithmetic.md R121). -/
def execClamp (s : State) : StepOutcome :=
  .next { s with acc := { s.acc with
    r8 := clamp8 s.acc.rs, g8 := clamp8 s.acc.gs, b8 := clamp8 s.acc.bs } }

/-- `PACK` (R122). -/
def execPack (s : State) : StepOutcome :=
  .next { s with acc := { s.acc with word := packWord s.acc.r8 s.acc.g8 s.acc.b8 } }

/-- `STW` (R123): the word goes to `RGB_BASE + 4·YP`. -/
def execStw (s : State) : StepOutcome :=
  (memWrite (outputAddress s) s.acc.word s).andThen fun _ t => .next t

/-! ### The closed form -/

/-- `CLAMP` on the integers: `min(255, max(0, x))` (40_clamp.md R80). -/
def clampInt (x : Int) : Byte := BitVec.ofInt 8 (min 255 (max 0 x))

/-- `asr(c, 10) + 2` with the floor form of the shift (43_pixel_arithmetic.md R120, 00_scope.md R6). -/
def descaleInt (c : Int) : Int := c / 1024 + Config.roundBias

/-- `PixelWord(Y, U, V)` (43_pixel_arithmetic.md R126); mind the order of the arguments. -/
def pixelWord (y u v : Byte) : Word :=
  let yq : Int := max 0 ((y.toNat : Int) - 16)
  let uq : Int := (u.toNat : Int) - 128
  let vq : Int := (v.toNat : Int) - 128
  packWord (clampInt (descaleInt (1192 * yq + 1634 * vq)))
    (clampInt (descaleInt (1192 * yq - 833 * vq - 400 * uq)))
    (clampInt (descaleInt (1192 * yq + 2066 * uq)))

/-- `yuv[k]` (00_scope.md R7): the byte of the input view at index `k`. -/
def inputByte (s : State) (k : Nat) : Byte := s.mem.read (s.regs.yuvBase.toNat + k)

/-- `ConvertFrame` (41_converter_command.md R90): the word of pixel `p` in closed form. -/
def convertWord (s : State) (p : Nat) : Word :=
  let kV := frameSize s + p / s.regs.width.toNat / 2 * s.regs.width.toNat + 2 * (p % s.regs.width.toNat / 2)
  pixelWord (inputByte s p) (inputByte s (kV + 1)) (inputByte s kV)

end Sys2Proof.Machine
end

