-- ==== Sys2Proof/Machine/Traversal.lean ====
section
/-! DEFINITION. The sequencer's micro-operations `ROWSTART`, `LDY`, `LDVU`, `ADV`
(42_traversal_and_fetch.md R101 to R105). -/

namespace Sys2Proof.Machine

/-- `ROWSTART` (R101). -/
def execRowstart (s : State) : StepOutcome := .next (rowStart s)

/-- `LDY`: the luma byte, zero-extended by its type (R102). -/
def execLdy (s : State) : StepOutcome :=
  (memRead (lumaAddress s) s).andThen fun b t => .next { t with acc := { t.acc with y := b } }

/-- The second half of `LDVU`: the U byte, then the cursor advances by two (R103). -/
def loadU (a : Nat) (s : State) : StepOutcome :=
  (memRead (a + 1) s).andThen fun b t =>
    .next { t with acc := { t.acc with u := b }, pos := { t.pos with uvp := t.pos.uvp + 2#64 } }

/-- `LDVU`: at even `X` the V byte, then the U byte; at odd `X` nothing it writes changes (R103). -/
def execLdvu (s : State) : StepOutcome :=
  if xEven s then
    (memRead (chromaAddress s) s).andThen fun b t =>
      loadU (chromaAddress s) { t with acc := { t.acc with v := b } }
  else .next s

/-- `ADV` (R105): the next pixel of the row, or the next row, or the end of the call. -/
def execAdv (s : State) : StepOutcome :=
  if beforeRowEnd s then
    .next { s with pos := { s.pos with yp := s.pos.yp + 1#64, x := s.pos.x + 1#32 } }
  else
    let t := { s with pos := { s.pos with yp := s.pos.yp + 1#64, i := s.pos.i + 1#32 } }
    if t.pos.i.toNat < t.regs.height.toNat then .next (rowStart t) else finishCall t

end Sys2Proof.Machine
end

