-- ==== Sys2Proof/Machine/Dispatch.lean ====
section
/-! DEFINITION. One arm per constructor of `Instr`, each a direct call of its meaning. -/

namespace Sys2Proof.Machine

def exec (i : Instr) (s : State) : Host.Outcome State Fault Refusal :=
  match i with
  | .rdregWidth _ => Sys2Proof.Machine.execRdregWidth s
  | .rdregHeight _ => Sys2Proof.Machine.execRdregHeight s
  | .rdregYuvBase _ => Sys2Proof.Machine.execRdregYuvBase s
  | .rdregYuvLen _ => Sys2Proof.Machine.execRdregYuvLen s
  | .rdregRgbBase _ => Sys2Proof.Machine.execRdregRgbBase s
  | .rdregRgbCap _ => Sys2Proof.Machine.execRdregRgbCap s
  | .rdregCtrl _ => Sys2Proof.Machine.execRdregCtrl s
  | .rdregStatus _ => Sys2Proof.Machine.execRdregStatus s
  | .wrregWidth d => Sys2Proof.Machine.execWrregWidth d s
  | .wrregHeight d => Sys2Proof.Machine.execWrregHeight d s
  | .wrregYuvBase d => Sys2Proof.Machine.execWrregYuvBase d s
  | .wrregYuvLen d => Sys2Proof.Machine.execWrregYuvLen d s
  | .wrregRgbBase d => Sys2Proof.Machine.execWrregRgbBase d s
  | .wrregRgbCap d => Sys2Proof.Machine.execWrregRgbCap d s
  | .convert _ => Sys2Proof.Machine.execConvert s
  | .nopcmd _ => Sys2Proof.Machine.execNopcmd s
  | .wrstatus _ => Sys2Proof.Machine.execWrstatus s
  | .check => Sys2Proof.Machine.execCheck s
  | .init => Sys2Proof.Machine.execInit s
  | .rowstart => Sys2Proof.Machine.execRowstart s
  | .ldy => Sys2Proof.Machine.execLdy s
  | .ldvu => Sys2Proof.Machine.execLdvu s
  | .ped => Sys2Proof.Machine.execPed s
  | .bias => Sys2Proof.Machine.execBias s
  | .matr => Sys2Proof.Machine.execMatr s
  | .matg => Sys2Proof.Machine.execMatg s
  | .matb => Sys2Proof.Machine.execMatb s
  | .descale => Sys2Proof.Machine.execDescale s
  | .clamp => Sys2Proof.Machine.execClamp s
  | .pack => Sys2Proof.Machine.execPack s
  | .stw => Sys2Proof.Machine.execStw s
  | .adv => Sys2Proof.Machine.execAdv s
  | .finish => Sys2Proof.Machine.execFinish s

end Sys2Proof.Machine
end

