-- ==== Sys2Proof/Machine/Sequencer.lean ====
section
/-! DEFINITION. The pixel step (42_traversal_and_fetch.md R108) and the moves of the outside: host
transactions, host accesses to memory, the memory's late answers, reset (00_scope.md R5). -/

namespace Sys2Proof.Machine

/-- The micro-operations of one pixel, in order (R108). `LDVU` tests `X[0]` itself (R103). -/
def pixelSequence : List Instr :=
  [.ldy, .ldvu, .ped, .bias, .matr, .matg, .matb, .descale, .clamp, .pack, .stw, .adv]

/-- Micro-operations run in order as one transition, as long as the call goes on: once an access
answered with an error has ended it, "the remaining micro-operations are not run" (R108). -/
def runSequence : List Instr → State → StepOutcome
  | [], s => .next s
  | i :: is, s =>
    match exec i s with
    | .next t => if t.status.busy then runSequence is t else .next t
    | .fault f => .fault f
    | .refused r => .refused r

/-- `PIXEL` (R108). -/
def pixelStep (s : State) : StepOutcome := runSequence pixelSequence s

/-- The sequencer's turn: its one step is enabled exactly when `BUSY = 1` (R108, 00_scope.md R5). -/
def sequencerTurn (s : State) : StepOutcome := if s.status.busy then pixelStep s else .next s

/-- A host transaction is decoded, always to a host operation (30_encoding.md R62, R64), and executed
in one atomic step (41_converter_command.md R85). -/
def runTransaction (t : Transaction) (s : State) : StepOutcome := exec (decodeTransaction t) s

/-- The memory answers the oldest outstanding write (10_state.md R27): it is performed, or the call
ends as a bridge failure (20_memory.md R56), or the answer is still to come. -/
def memoryTurn (s : State) : StepOutcome :=
  match s.outstanding with
  | [] => .next s
  | p :: ps =>
    match answer s with
    | .error => .next (raiseBridge (answered s))
    | .later => .next (answered s)
    | .ok => .next { answered s with
        mem := s.mem.writeWord s.params.endian p.addr p.word, outstanding := ps }

/-- The host stores a byte: not to either view during a call (20_memory.md R53). That a host access is of
one byte is the model's form of it: DESIGN CHOICE (log 23). -/
def hostStore (a : Nat) (b : Byte) (s : State) : StepOutcome :=
  if s.status.busy && (inInputView s a || inOutputView s a) then .refused .hostBreaksCall
  else if a < 2 ^ s.params.aw then .next { s with mem := s.mem.write a b }
  else .fault .noSuchAddress

/-- The host loads a byte: not from the output view during a call (20_memory.md R53). A wider load, such
as the 32-bit loads of R44, is a run of byte loads: DESIGN CHOICE (log 23). -/
def hostLoad (a : Nat) (s : State) : StepOutcome :=
  if s.status.busy && inOutputView s a then .refused .hostBreaksCall
  else if a < 2 ^ s.params.aw then .next { s with ret := (s.mem.read a).setWidth 64 }
  else .fault .noSuchAddress

/-- Reset (70_reset_and_hazards.md R155, R157): the block takes the state of `State.reset`; memory is
untouched, but for the output view of a call under way, which becomes unspecified. What is still to
come from outside, and the parameters, stay. -/
def resetTurn (s : State) : State :=
  let t := if s.status.busy then unspecifyOutput s else s
  { State.reset with
    mem := t.mem, draws := t.draws, answers := s.answers, inputs := s.inputs, params := s.params }

/-- One move of the outside. -/
def takeInput (e : Input) (s : State) : StepOutcome :=
  match e with
  | .transaction t => runTransaction t s
  | .turn => sequencerTurn s
  | .memAnswer => memoryTurn s
  | .hostStore a b => hostStore a b s
  | .hostLoad a => hostLoad a s
  | .reset => .next (resetTurn s)

/-- The next move of the hardware: the first listed input; with none listed the sequencer moves while
`BUSY = 1`, and an idle block waits (60_exceptions.md R146). A micro-operation runs in it only as part
of `CONVERT` or of the pixel step (30_encoding.md R69). -/
def nextMove (s : State) : StepOutcome :=
  match s.inputs with
  | [] => sequencerTurn s
  | e :: es => takeInput e { s with inputs := es }

/-- A micro-operation laid on the bench is taken off it and run; the hardware has no such move
(30_encoding.md R69; log 3). -/
def runBench (c : UopCode) (s : State) : StepOutcome := exec (decodeUop c) { s with bench := none }

/-- The step: the bench first, which is empty in every state of the hardware, else the next move. -/
def benchOrMove (s : State) : StepOutcome :=
  match s.bench with
  | some c => runBench c s
  | none => nextMove s

end Sys2Proof.Machine
end

