-- ==== Sys2Proof/Machine/Step.lean ====
section
/-! DEFINITION. One step of the machine, and where the step finds its next encoded operation. -/

namespace Sys2Proof.Machine

/-- One step: one move of the outside, or one pixel step (00_scope.md R5, R9; log 1, log 15). -/
def step (s : State) : Host.Outcome State Fault Refusal := benchOrMove s

/-- The operation whose table word is `w` comes next, and nothing else changes: a host transaction is
put first among the inputs (log 1); a micro-operation code, which no input can hold, is laid on the
bench (log 3). -/
def State.withFetchWord (s : State) (nbits w : Nat) : State :=
  if nbits ≤ 8 then { s with bench := some (BitVec.ofNat 4 w) }
  else { s with inputs := .transaction (BitVec.ofNat 68 w) :: s.inputs }

end Sys2Proof.Machine
end

