-- ==== Sys2Proof/Safety.lean ====
section
/-! DEFINITION. The terms in which statements speak of a safe run: the legal values of `STATUS`, what
makes a `CONVERT` start, the invariant of a running call, and the part of the frame that is done. -/

namespace Sys2Proof.Machine

/-- The five host operations of 30_encoding.md R62. -/
inductive HostOperation where
  | rdreg
  | wrreg
  | convert
  | nopcmd
  | wrstatus
  deriving DecidableEq, Repr

/-- The host operation a row of the table belongs to; none for a micro-operation (R62, R69). -/
def hostOperation : Instr → Option HostOperation
  | .rdregWidth _ | .rdregHeight _ | .rdregYuvBase _ | .rdregYuvLen _ => some .rdreg
  | .rdregRgbBase _ | .rdregRgbCap _ | .rdregCtrl _ | .rdregStatus _ => some .rdreg
  | .wrregWidth _ | .wrregHeight _ | .wrregYuvBase _ => some .wrreg
  | .wrregYuvLen _ | .wrregRgbBase _ | .wrregRgbCap _ => some .wrreg
  | .convert _ => some .convert
  | .nopcmd _ => some .nopcmd
  | .wrstatus _ => some .wrstatus
  | .check | .init | .rowstart | .ldy | .ldvu | .ped | .bias | .matr => none
  | .matg | .matb | .descale | .clamp | .pack | .stw | .adv | .finish => none

/-- The legal values of the whole register `STATUS` (10_state.md R18). -/
def statusLegal (t : Status) : Bool :=
  [0x00#64, 0x01#64, 0x02#64, 0x14#64, 0x24#64, 0x34#64, 0x44#64, 0x54#64].contains (statusWord t)

/-- Null base (41_converter_command.md R87, `E_NULL`). -/
abbrev nullBase (s : State) : Prop := s.regs.yuvBase = 0#64 ∨ s.regs.rgbBase = 0#64

/-- A dimension that is zero or odd (R87, `E_DIM`). -/
abbrev badDimension (s : State) : Prop :=
  s.regs.width.toNat = 0 ∨ s.regs.height.toNat = 0 ∨
  s.regs.width.toNat % 2 = 1 ∨ s.regs.height.toNat % 2 = 1

/-- A length that is not the frame's: the input `W·H·3/2` bytes, the output `W·H` words (R87,
`E_LEN`; 10_state.md R14, R16). -/
abbrev badLength (s : State) : Prop :=
  s.regs.yuvLen.toNat ≠ s.regs.width.toNat * s.regs.height.toNat * 3 / 2 ∨
  s.regs.rgbCap.toNat ≠ s.regs.width.toNat * s.regs.height.toNat

/-- A misaligned output base, or a view past the top of the address space (R87, `E_ADDR`). -/
abbrev badAddress (s : State) : Prop :=
  s.regs.rgbBase.toNat % 4 ≠ 0 ∨
  s.regs.yuvBase.toNat + s.regs.yuvLen.toNat > 2 ^ s.params.aw ∨
  s.regs.rgbBase.toNat + 4 * s.regs.rgbCap.toNat > 2 ^ s.params.aw

/-- The operand registers describe a convertible frame: no test of `CHECK` fails (R87). -/
abbrev validOperands (s : State) : Prop :=
  ¬ nullBase s ∧ ¬ badDimension s ∧ ¬ badLength s ∧ ¬ badAddress s

/-- Both base registers hold `AW` bits (10_state.md R13, R15). -/
abbrev basesBounded (s : State) : Prop :=
  s.regs.yuvBase.toNat < 2 ^ s.params.aw ∧ s.regs.rgbBase.toNat < 2 ^ s.params.aw

/-- An outstanding write of a call: the word of a pixel already passed (43_pixel_arithmetic.md R123). -/
def postedBefore (s : State) (p : Posted) : Bool :=
  decide (s.regs.rgbBase.toNat ≤ p.addr) && decide (p.addr % 4 = 0) &&
  decide (p.addr + 4 ≤ outputAddress s)

/-- The invariant of the sequencer. Idle: no access is outstanding (20_memory.md R52). Busy: the
operands are those `CHECK` accepted, on disjoint views; the position is that of a pixel of the frame
(10_state.md R21) with the cursor of 42_traversal_and_fetch.md R110; and every outstanding write is
of a pixel already passed. -/
abbrev callInv (s : State) : Prop :=
  (s.status.busy = false → s.outstanding = []) ∧
  (s.status.busy = true →
    validOperands s ∧ viewsDisjoint s = true ∧
    s.pos.fs.toNat = frameSize s ∧
    s.pos.i.toNat < s.regs.height.toNat ∧ s.pos.x.toNat < s.regs.width.toNat ∧
    s.pos.yp.toNat = s.pos.i.toNat * s.regs.width.toNat + s.pos.x.toNat ∧
    s.pos.uvp.toNat = frameSize s + s.pos.i.toNat / 2 * s.regs.width.toNat
      + 2 * ((s.pos.x.toNat + 1) / 2) ∧
    s.outstanding.all (postedBefore s) = true)

/-- The chroma latch (10_state.md R23): at an odd `X` of a call `acc.V`, `acc.U` hold the pair of the
pixel before. -/
abbrev latchInv (s : State) : Prop :=
  s.status.busy = true → s.pos.x.toNat % 2 = 1 →
    s.acc.v = inputByte s (s.pos.uvp.toNat - 2) ∧ s.acc.u = inputByte s (s.pos.uvp.toNat - 1)

/-- Memory once every outstanding write has been performed. -/
def settledMem (s : State) : Memory :=
  s.outstanding.foldl (fun m p => m.writeWord s.params.endian p.addr p.word) s.mem

/-- Whether a memory holds the converted word of pixel `p` in the output view, byte by byte in the
order of `HOST_ENDIAN` (41_converter_command.md R90, 20_memory.md R44). -/
abbrev holdsPixel (s : State) (m : Memory) (p : Nat) : Prop :=
  ∀ k < 4, m.read (s.regs.rgbBase.toNat + 4 * p + k) = wordByte s.params.endian (convertWord s p) k

/-- Every pixel already passed by a running call has its converted word, in memory or under way. -/
abbrev frameInv (s : State) : Prop :=
  s.status.busy = true → ∀ p < s.pos.yp.toNat, holdsPixel s (settledMem s) p

/-- Whether an address is one of the `4·W·H` bytes of the output words (60_exceptions.md R140). -/
abbrev inOutputWords (s : State) (a : Nat) : Prop :=
  s.regs.rgbBase.toNat ≤ a ∧ a < s.regs.rgbBase.toNat + 4 * frameSize s

/-- What a bridge failure leaves (60_exceptions.md R139, R140): `STATUS = 0x54`, the operand registers
kept, no access outstanding, nothing changed in memory outside the output words, and in each byte of
the output words a free value. -/
abbrev bridgeEnding (s t : State) : Prop :=
  t.status = { busy := false, done := false, err := true, ecode := 5#3 } ∧
  statusWord t.status = 0x54#64 ∧ t.regs = s.regs ∧ t.outstanding = [] ∧
  (∀ a, ¬ inOutputWords s a → t.mem.read a = s.mem.read a) ∧
  (∀ a, inOutputWords s a → t.mem.read a = Config.freeByte s.draws a) ∧ t.draws = s.draws + 1 ∧
  t.inputs = s.inputs ∧ t.ret = s.ret ∧ t.params = s.params

/-- Whether the memory answers access number `k` of those to come with an error. -/
abbrev failsAt (s : State) (k : Nat) : Prop :=
  s.answers[k]? = some .error ∧ s.params.memCanFail = true

end Sys2Proof.Machine
end

