-- ==== Sys2Proof/Certificates/Slice0/Obligations.lean ====
section
/-! DEFINITION. The statements about the machine, from the numbered rules of spec/. -/

open Sys2Proof Sys2Proof.Machine

/-! ### Encoding -/

/-- Decode and encode agree on every operation, with every operand at every value (30_encoding.md
R60 to R62, R69). -/
def Obligations.DecodeOfEncodeIsTheOperation : Prop :=
  ∀ i : Instr, decode (encode i) = .ok i

/-- Every 68-bit transaction decodes to a host operation whose encoding is that same transaction: no
transaction is illegal and no bit is lost (30_encoding.md R62, R64). -/
def Obligations.EveryTransactionDecodesAndReencodes : Prop :=
  ∀ t : Transaction, ∃ i, decode (transactionBytes t) = .ok i ∧ i.isHost = true ∧
    encode i = transactionBytes t

/-- The six rows of 30_encoding.md R62 as mask and match, and that they leave no transaction out. -/
def Obligations.TransactionRowsSelectTheHostOperation : Prop :=
  ∀ (t : Transaction) (i : Instr), decode (transactionBytes t) = .ok i →
    (t &&& 0x80000000000000000#68 = 0x00000000000000000#68 → hostOperation i = some .rdreg) ∧
    (t &&& 0xC0000000000000000#68 = 0x80000000000000000#68 → hostOperation i = some .wrreg) ∧
    (t &&& 0xE0000000000000000#68 = 0xC0000000000000000#68 → hostOperation i = some .wrreg) ∧
    (t &&& 0xF0000000000000001#68 = 0xE0000000000000001#68 → hostOperation i = some .convert) ∧
    (t &&& 0xF0000000000000001#68 = 0xE0000000000000000#68 → hostOperation i = some .nopcmd) ∧
    (t &&& 0xF0000000000000000#68 = 0xF0000000000000000#68 → hostOperation i = some .wrstatus) ∧
    (t &&& 0x80000000000000000#68 = 0x00000000000000000#68 ∨
      t &&& 0xC0000000000000000#68 = 0x80000000000000000#68 ∨
      t &&& 0xE0000000000000000#68 = 0xC0000000000000000#68 ∨
      t &&& 0xF0000000000000001#68 = 0xE0000000000000001#68 ∨
      t &&& 0xF0000000000000001#68 = 0xE0000000000000000#68 ∨
      t &&& 0xF0000000000000000#68 = 0xF0000000000000000#68)

/-- The sixteen micro-operation codes (30_encoding.md R69) decode to their micro-operations. -/
def Obligations.UopCodesDecode : Prop :=
  decode [0x0#8] = .ok .check ∧ decode [0x1#8] = .ok .init ∧ decode [0x2#8] = .ok .rowstart ∧
  decode [0x3#8] = .ok .ldy ∧ decode [0x4#8] = .ok .ldvu ∧ decode [0x5#8] = .ok .ped ∧
  decode [0x6#8] = .ok .bias ∧ decode [0x7#8] = .ok .matr ∧ decode [0x8#8] = .ok .matg ∧
  decode [0x9#8] = .ok .matb ∧ decode [0xA#8] = .ok .descale ∧ decode [0xB#8] = .ok .clamp ∧
  decode [0xC#8] = .ok .pack ∧ decode [0xD#8] = .ok .stw ∧ decode [0xE#8] = .ok .adv ∧
  decode [0xF#8] = .ok .finish

/-- Words written out from 30_encoding.md R60 to R62 (the listing of 95_test_vectors.md 2.12). -/
def Obligations.SpecTransactionsDecode : Prop :=
  decode (transactionBytes 0x70000000000000000#68) = .ok (.rdregStatus 0#64) ∧
  decode (transactionBytes 0x80000000100000004#68) = .ok (.wrregWidth 0x100000004#64) ∧
  decode (transactionBytes 0xA0000000000001000#68) = .ok (.wrregYuvBase 0x1000#64) ∧
  decode (transactionBytes 0xE0000000000000001#68) = .ok (.convert 0#63) ∧
  decode (transactionBytes 0xE0000000000000000#68) = .ok (.nopcmd 0#63) ∧
  decode (transactionBytes 0xF0000000000000054#68) = .ok (.wrstatus 0x54#64)

/-! ### The step -/

/-- A step runs the operation that a transaction decodes to, on the state with that input taken, and it
is a host operation, whatever the transaction: no input runs a micro-operation on its own, "the host
cannot issue one" (30_encoding.md R62, R64, R69). The bench, the model's own (log 3) and empty in every
state of the hardware, runs the micro-operation laid on it. -/
def Obligations.StepRunsTheDecodedOperation : Prop :=
  ∀ (s : State) (i : Instr),
    (∀ (x : Transaction) (rest : List Input), s.bench = none → s.inputs = .transaction x :: rest →
      decode (transactionBytes x) = .ok i →
      i.isHost = true ∧ step s = exec i { s with inputs := rest }) ∧
    (∀ c : UopCode, s.bench = some c → decode (uopBytes c) = .ok i →
      i.isHost = false ∧ step s = exec i { s with bench := none })

/-- The sequencer's step is the pixel step, the twelve micro-operations in their order, taken exactly
while `BUSY = 1` (42_traversal_and_fetch.md R108); an idle block with nothing to do waits. -/
def Obligations.SequencerStepsExactlyWhileBusy : Prop :=
  ∀ (s : State), s.bench = none →
    (s.inputs = [] → s.status.busy = true → step s = runSequence
      [.ldy, .ldvu, .ped, .bias, .matr, .matg, .matb, .descale, .clamp, .pack, .stw, .adv] s) ∧
    (s.inputs = [] → s.status.busy = false → step s = .next s) ∧
    (∀ rest, s.inputs = .turn :: rest → s.status.busy = true →
      step s = runSequence
        [.ldy, .ldvu, .ped, .bias, .matr, .matg, .matb, .descale, .clamp, .pack, .stw, .adv]
        { s with inputs := rest }) ∧
    (∀ rest, s.inputs = .turn :: rest → s.status.busy = false →
      step s = .next { s with inputs := rest })

/-- Every step takes exactly one thing, in every state: what lies on the bench, else the first listed
input (the model's choice, logs 1 and 3); and no step lays a micro-operation on the bench, so that none
ever runs on its own but where one was laid from outside (30_encoding.md R69). -/
def Obligations.StepConsumesOneInput : Prop :=
  ∀ s t : State, step s = .next t → t.bench = none ∧
    (s.bench = none → t.inputs = s.inputs.tail) ∧ (s.bench ≠ none → t.inputs = s.inputs)

/-! ### The register port -/

/-- A read returns the register zero-extended, `CTRL` reads 0, and nothing else changes, at any time
(10_state.md R19). A base register of `AW` bits has zeros above its width, as every step keeps it
(`StepKeepsTheBasesInTheirWidth`). -/
def Obligations.ReadReturnsTheRegisterAndChangesNothing : Prop :=
  ∀ (d : DWord) (s : State),
    exec (.rdregWidth d) s = .next { s with ret := s.regs.width.setWidth 64 } ∧
    exec (.rdregHeight d) s = .next { s with ret := s.regs.height.setWidth 64 } ∧
    exec (.rdregYuvBase d) s = .next { s with ret := s.regs.yuvBase } ∧
    exec (.rdregYuvLen d) s = .next { s with ret := s.regs.yuvLen } ∧
    exec (.rdregRgbBase d) s = .next { s with ret := s.regs.rgbBase } ∧
    exec (.rdregRgbCap d) s = .next { s with ret := s.regs.rgbCap } ∧
    exec (.rdregCtrl d) s = .next { s with ret := 0#64 } ∧
    exec (.rdregStatus d) s = .next { s with ret := statusWord s.status } ∧
    (basesBounded s → ∀ k, s.params.aw ≤ k →
      s.regs.yuvBase.getLsbD k = false ∧ s.regs.rgbBase.getLsbD k = false)

/-- The bits of the value a `STATUS` read returns: `BUSY` 0, `DONE` 1, `ERR` 2, `ECODE` 6:4, and
zeros in bits 3 and 63:7 (10_state.md R18, 30_encoding.md R64). -/
def Obligations.StatusReadLayout : Prop :=
  ∀ (d : DWord) (s : State), ∃ t, exec (.rdregStatus d) s = .next t ∧
    t.ret.getLsbD 0 = s.status.busy ∧ t.ret.getLsbD 1 = s.status.done ∧
    t.ret.getLsbD 2 = s.status.err ∧ t.ret.getLsbD 3 = false ∧
    t.ret.extractLsb' 4 3 = s.status.ecode ∧ t.ret.extractLsb' 7 57 = 0#57

/-- An operand write while `BUSY = 0` stores the low bits of the data, as many as the register is
wide, and changes nothing else, `STATUS` included (10_state.md R20). -/
def Obligations.OperandWriteStoresTheLowBits : Prop :=
  ∀ (d : DWord) (s : State), s.status.busy = false →
    exec (.wrregWidth d) s = .next { s with regs := { s.regs with width := d.extractLsb' 0 32 } } ∧
    exec (.wrregHeight d) s = .next { s with regs := { s.regs with height := d.extractLsb' 0 32 } } ∧
    (∃ b : DWord, exec (.wrregYuvBase d) s = .next { s with regs := { s.regs with yuvBase := b } } ∧
      ∀ k < 64, b.getLsbD k = (decide (k < s.params.aw) && d.getLsbD k)) ∧
    exec (.wrregYuvLen d) s = .next { s with regs := { s.regs with yuvLen := d } } ∧
    (∃ b : DWord, exec (.wrregRgbBase d) s = .next { s with regs := { s.regs with rgbBase := b } } ∧
      ∀ k < 64, b.getLsbD k = (decide (k < s.params.aw) && d.getLsbD k)) ∧
    exec (.wrregRgbCap d) s = .next { s with regs := { s.regs with rgbCap := d } }

/-- Writes that have no effect: an operand write or a `CONVERT` while `BUSY = 1`, a `CTRL` write with
`START = 0`, a `STATUS` write (10_state.md R20, 41_converter_command.md R92). -/
def Obligations.WritesWithoutEffect : Prop :=
  ∀ (d : DWord) (r : BitVec 63) (s : State),
    (s.status.busy = true →
      exec (.wrregWidth d) s = .next s ∧ exec (.wrregHeight d) s = .next s ∧
      exec (.wrregYuvBase d) s = .next s ∧ exec (.wrregYuvLen d) s = .next s ∧
      exec (.wrregRgbBase d) s = .next s ∧ exec (.wrregRgbCap d) s = .next s ∧
      exec (.convert r) s = .next s) ∧
    exec (.nopcmd r) s = .next s ∧ exec (.wrstatus d) s = .next s

/-! ### CONVERT, CHECK, INIT, FINISH -/

/-- `CHECK` returns the code of the first test that fails, in the order null, dimension, length,
address, and 0 when none does; it changes nothing but the returned value (41_converter_command.md
R87). -/
def Obligations.CheckReturnsTheFirstFailingTest : Prop :=
  ∀ s : State, ∃ c : Nat, exec .check s = .next { s with ret := BitVec.ofNat 64 c } ∧
    (nullBase s → c = 1) ∧
    (¬ nullBase s → badDimension s → c = 2) ∧
    (¬ nullBase s → ¬ badDimension s → badLength s → c = 3) ∧
    (¬ nullBase s → ¬ badDimension s → ¬ badLength s → badAddress s → c = 4) ∧
    (validOperands s → c = 0)

/-- A `CONVERT` on an idle block with operands that pass every test, and disjoint views, starts the
call: `STATUS = 0x01`, the position at pixel 0 with `FS = W·H` and the cursor at the chroma plane;
nothing else changes, memory included (41_converter_command.md R85, R88, 42_traversal_and_fetch.md
R101). -/
def Obligations.ConvertStartsTheCall : Prop :=
  ∀ (r : BitVec 63) (s : State),
    s.status.busy = false → validOperands s → viewsDisjoint s = true →
    ∃ t, exec (.convert r) s = .next t ∧
      t = { s with status := t.status, pos := t.pos } ∧
      t.status = { busy := true, done := false, err := false, ecode := 0#3 } ∧
      t.pos.i = 0#32 ∧ t.pos.x = 0#32 ∧ t.pos.yp = 0#64 ∧
      t.pos.fs.toNat = s.regs.width.toNat * s.regs.height.toNat ∧
      t.pos.uvp.toNat = s.regs.width.toNat * s.regs.height.toNat

/-- A `CONVERT` that `CHECK` refuses enters the precondition violation: `STATUS` reads `0x14`, `0x24`,
`0x34` or `0x44` by the first failing test, and nothing else changes (60_exceptions.md R137, R138). -/
def Obligations.RefusedConvertChangesOnlyStatus : Prop :=
  ∀ (r : BitVec 63) (s : State), s.status.busy = false → ¬ validOperands s →
    ∃ t, exec (.convert r) s = .next t ∧ t = { s with status := t.status } ∧
      t.status.busy = false ∧ t.status.done = false ∧ t.status.err = true ∧
      (nullBase s → statusWord t.status = 0x14#64) ∧
      (¬ nullBase s → badDimension s → statusWord t.status = 0x24#64) ∧
      (¬ nullBase s → ¬ badDimension s → badLength s → statusWord t.status = 0x34#64) ∧
      (¬ nullBase s → ¬ badDimension s → ¬ badLength s → badAddress s → statusWord t.status = 0x44#64)

/-- A `CONVERT` with good operands on overlapping views is no launch: the model gives it no meaning
(20_memory.md R50, 93_implementation_defined.md U4; log 11). `CHECK` does not detect the overlap: it
returns 0 there. -/
def Obligations.OverlappingViewsAreRefused : Prop :=
  ∀ (r : BitVec 63) (s : State),
    s.status.busy = false → validOperands s → viewsDisjoint s = false →
    exec (.convert r) s = .refused .overlappingViews ∧ exec .check s = .next { s with ret := 0#64 }

/-- `INIT` loads the frame size without overflow and clears `I` and `YP` (41_converter_command.md
R88). -/
def Obligations.InitLoadsTheFrameSize : Prop :=
  ∀ s : State, ∃ t, exec .init s = .next t ∧
    t = { s with pos := { s.pos with fs := t.pos.fs, i := 0#32, yp := 0#64 } } ∧
    t.pos.fs.toNat = s.regs.width.toNat * s.regs.height.toNat

/-- `FINISH` performs every outstanding write and then sets `STATUS = 0x02`, when the memory answers
none of them with an error (41_converter_command.md R89). That they are performed oldest first, one
answer of `State.answers` for each, is the model's choice (DESIGN CHOICE, logs 8 and 9); so is that the
position and the accumulators keep their values, which the spec leaves open while idle (log 22). -/
def Obligations.FinishPerformsEveryWriteAndSetsDone : Prop :=
  ∀ s : State, (∀ k < s.outstanding.length, ¬ failsAt s k) →
    ∃ t, exec .finish s = .next t ∧ statusWord t.status = 0x02#64 ∧
      t = { s with status := t.status, mem := settledMem s, outstanding := [],
                   answers := s.answers.drop s.outstanding.length }

/-- `FINISH` ends the call as a bridge failure when an awaited write is answered with an error
(41_converter_command.md R89, 60_exceptions.md R139). -/
def Obligations.FinishOnAFailedWriteIsABridgeFailure : Prop :=
  ∀ s : State, (∃ k < s.outstanding.length, failsAt s k) →
    ∃ t, exec .finish s = .next t ∧ statusWord t.status = 0x54#64 ∧ t.outstanding = [] ∧
      t.regs = s.regs ∧
      (s.outstanding.all (fun p => inOutputView s p.addr && inOutputView s (p.addr + 3)) = true →
        ∀ a, inOutputView s a = false → ¬ inOutputWords s a → t.mem.read a = s.mem.read a)

/-! ### ROWSTART, LDY, LDVU, ADV -/

/-- `ROWSTART` puts the cursor at the chroma row of luma row `I` and clears `X`
(42_traversal_and_fetch.md R101). -/
def Obligations.RowstartReloadsTheCursor : Prop :=
  ∀ s : State, ∃ t, exec .rowstart s = .next t ∧
    t = { s with pos := { s.pos with uvp := t.pos.uvp, x := 0#32 } } ∧
    t.pos.uvp.toNat =
      (s.pos.fs.toNat + (s.pos.i >>> 1).toNat * s.regs.width.toNat) % 2 ^ 64

/-- `LDY` reads the luma byte at `YUV_BASE + YP` (42_traversal_and_fetch.md R102). One answer is taken
off `State.answers`, the model's own list (DESIGN CHOICE, log 8). -/
def Obligations.LdyReadsTheLumaByte : Prop :=
  ∀ s : State, s.regs.yuvBase.toNat + s.pos.yp.toNat < 2 ^ s.params.aw → answer s ≠ .error →
    exec .ldy s = .next { s with
      answers := s.answers.tail
      acc := { s.acc with y := s.mem.read (s.regs.yuvBase.toNat + s.pos.yp.toNat) } }

/-- `LDVU` at even `X` reads V, then U, and advances the cursor by two; at odd `X` it changes nothing
(42_traversal_and_fetch.md R103). The two reads take two answers off `State.answers`, the model's own
list (DESIGN CHOICE, log 8), beside which nothing else changes. -/
def Obligations.LdvuReadsVThenU : Prop :=
  ∀ s : State,
    (s.pos.x.toNat % 2 = 0 → s.regs.yuvBase.toNat + s.pos.uvp.toNat + 1 < 2 ^ s.params.aw →
      answer s ≠ .error → answer (answered s) ≠ .error →
      exec .ldvu s = .next { s with
        answers := s.answers.tail.tail
        acc := { s.acc with
          v := s.mem.read (s.regs.yuvBase.toNat + s.pos.uvp.toNat)
          u := s.mem.read (s.regs.yuvBase.toNat + s.pos.uvp.toNat + 1) }
        pos := { s.pos with uvp := s.pos.uvp + 2#64 } }) ∧
    (s.pos.x.toNat % 2 = 1 → exec .ldvu s = .next s)

/-- `ADV`: one pixel on in the row; at the row's end the next row with its `ROWSTART`; after the last
row `FINISH` (42_traversal_and_fetch.md R105). That `UVP`, `FS` and the accumulators keep their values
where the call ends is the model's choice (DESIGN CHOICE, log 22). -/
def Obligations.AdvGoesToTheNextPixelRowOrEnd : Prop :=
  ∀ s : State,
    (s.pos.x.toNat + 1 < s.regs.width.toNat →
      exec .adv s = .next { s with pos := { s.pos with x := s.pos.x + 1#32, yp := s.pos.yp + 1#64 } }) ∧
    (s.regs.width.toNat ≤ s.pos.x.toNat + 1 → (s.pos.i + 1#32).toNat < s.regs.height.toNat →
      exec .adv s = exec .rowstart
        { s with pos := { s.pos with i := s.pos.i + 1#32, yp := s.pos.yp + 1#64 } } ∧
      ∃ t, exec .adv s = .next t ∧ t.pos.x = 0#32 ∧ t.pos.i = s.pos.i + 1#32 ∧
        t.pos.yp = s.pos.yp + 1#64 ∧ t.status = s.status) ∧
    (s.regs.width.toNat ≤ s.pos.x.toNat + 1 → s.regs.height.toNat ≤ (s.pos.i + 1#32).toNat →
      exec .adv s = exec .finish
        { s with pos := { s.pos with i := s.pos.i + 1#32, yp := s.pos.yp + 1#64 } } ∧
      (s.outstanding = [] → exec .adv s = .next { s with
        pos := { s.pos with i := s.pos.i + 1#32, yp := s.pos.yp + 1#64 }
        status := { busy := false, done := true, err := false, ecode := 0#3 } }))

/-! ### The datapath -/

/-- `PED`: `y' = max(0, Y − 16)` (43_pixel_arithmetic.md R115). -/
def Obligations.PedRemovesThePedestal : Prop :=
  ∀ s : State, ∃ t, exec .ped s = .next t ∧
    t = { s with acc := { s.acc with yq := t.acc.yq } } ∧
    t.acc.yq.toInt = max 0 ((s.acc.y.toNat : Int) - 16)

/-- `BIAS`: `v' = V − 128`, `u' = U − 128` (43_pixel_arithmetic.md R116). -/
def Obligations.BiasRemovesTheChromaBias : Prop :=
  ∀ s : State, ∃ t, exec .bias s = .next t ∧
    t = { s with acc := { s.acc with vq := t.acc.vq, uq := t.acc.uq } } ∧
    t.acc.vq.toInt = (s.acc.v.toNat : Int) - 128 ∧ t.acc.uq.toInt = (s.acc.u.toNat : Int) - 128

/-- The three matrix rows, exact in `s32` for every value `PED` and `BIAS` can give, within the ranges
of 43_pixel_arithmetic.md R124 (R117, R118, R119). For any other value, which no call has, that the row
is truncated to 32 bits is the model's choice (PRESUMED, log 16): R124 lets a model use any width. -/
def Obligations.MatrixRowsAreExact : Prop :=
  ∀ s : State,
    (∃ t, exec .matr s = .next t ∧ t = { s with acc := { s.acc with rpre := t.acc.rpre } } ∧
      t.acc.rpre = BitVec.ofInt 32 (1192 * s.acc.yq.toInt + 1634 * s.acc.vq.toInt) ∧
      (0 ≤ s.acc.yq.toInt → s.acc.yq.toInt ≤ 239 → -128 ≤ s.acc.vq.toInt → s.acc.vq.toInt ≤ 127 →
        t.acc.rpre.toInt = 1192 * s.acc.yq.toInt + 1634 * s.acc.vq.toInt ∧
        -209152 ≤ t.acc.rpre.toInt ∧ t.acc.rpre.toInt ≤ 492406)) ∧
    (∃ t, exec .matg s = .next t ∧ t = { s with acc := { s.acc with gpre := t.acc.gpre } } ∧
      t.acc.gpre = BitVec.ofInt 32
        (1192 * s.acc.yq.toInt - 833 * s.acc.vq.toInt - 400 * s.acc.uq.toInt) ∧
      (0 ≤ s.acc.yq.toInt → s.acc.yq.toInt ≤ 239 → -128 ≤ s.acc.vq.toInt → s.acc.vq.toInt ≤ 127 →
        -128 ≤ s.acc.uq.toInt → s.acc.uq.toInt ≤ 127 →
        t.acc.gpre.toInt = 1192 * s.acc.yq.toInt - 833 * s.acc.vq.toInt - 400 * s.acc.uq.toInt ∧
        -156591 ≤ t.acc.gpre.toInt ∧ t.acc.gpre.toInt ≤ 442712)) ∧
    (∃ t, exec .matb s = .next t ∧ t = { s with acc := { s.acc with bpre := t.acc.bpre } } ∧
      t.acc.bpre = BitVec.ofInt 32 (1192 * s.acc.yq.toInt + 2066 * s.acc.uq.toInt) ∧
      (0 ≤ s.acc.yq.toInt → s.acc.yq.toInt ≤ 239 → -128 ≤ s.acc.uq.toInt → s.acc.uq.toInt ≤ 127 →
        t.acc.bpre.toInt = 1192 * s.acc.yq.toInt + 2066 * s.acc.uq.toInt ∧
        -264448 ≤ t.acc.bpre.toInt ∧ t.acc.bpre.toInt ≤ 547270))

/-- `DESCALE`: floor division by 1024, then plus 2, on each channel (43_pixel_arithmetic.md R120). -/
def Obligations.DescaleFloorsThenAddsTwo : Prop :=
  ∀ s : State, ∃ t, exec .descale s = .next t ∧
    t = { s with acc := { s.acc with rs := t.acc.rs, gs := t.acc.gs, bs := t.acc.bs } } ∧
    t.acc.rs.toInt = s.acc.rpre.toInt / 1024 + 2 ∧
    t.acc.gs.toInt = s.acc.gpre.toInt / 1024 + 2 ∧
    t.acc.bs.toInt = s.acc.bpre.toInt / 1024 + 2

/-- `CLAMP` saturates each channel to 0..255 for every `s32` input (40_clamp.md R80,
43_pixel_arithmetic.md R121). -/
def Obligations.ClampSaturatesEveryChannel : Prop :=
  ∀ s : State, ∃ t, exec .clamp s = .next t ∧
    t = { s with acc := { s.acc with r8 := t.acc.r8, g8 := t.acc.g8, b8 := t.acc.b8 } } ∧
    (t.acc.r8.toNat : Int) = min 255 (max 0 s.acc.rs.toInt) ∧
    (t.acc.g8.toNat : Int) = min 255 (max 0 s.acc.gs.toInt) ∧
    (t.acc.b8.toNat : Int) = min 255 (max 0 s.acc.bs.toInt)

/-- The Clamp unit is defined by its three cases on every 32-bit input, monotone, and idempotent on
its range (40_clamp.md R80). -/
def Obligations.ClampCasesMonotoneIdempotent : Prop :=
  (∀ x : Word, (x.toInt < 0 → clamp8 x = 0#8) ∧ (255 < x.toInt → clamp8 x = 255#8) ∧
    (0 ≤ x.toInt → x.toInt ≤ 255 → ((clamp8 x).toNat : Int) = x.toInt)) ∧
  (∀ x y : Word, x.toInt ≤ y.toInt → (clamp8 x).toNat ≤ (clamp8 y).toNat) ∧
  (∀ x : Word, clamp8 ((clamp8 x).setWidth 32) = clamp8 x)

/-- `PACK` concatenates `0xFF`, R, G, B (43_pixel_arithmetic.md R122). -/
def Obligations.PackConcatenatesTheChannels : Prop :=
  ∀ s : State, ∃ t, exec .pack s = .next t ∧
    t = { s with acc := { s.acc with word := t.acc.word } } ∧
    t.acc.word.extractLsb' 24 8 = 0xFF#8 ∧ t.acc.word.extractLsb' 16 8 = s.acc.r8 ∧
    t.acc.word.extractLsb' 8 8 = s.acc.g8 ∧ t.acc.word.extractLsb' 0 8 = s.acc.b8

/-- `STW` stores `acc.WORD` at `RGB_BASE + 4·YP` in the byte order of `HOST_ENDIAN`, and every other
byte reads as before (43_pixel_arithmetic.md R123, 20_memory.md R44). One answer is taken off
`State.answers`, the model's own list (DESIGN CHOICE, log 8). That a write answered later changes no byte
yet and joins the end of `State.outstanding` is the model's form of the unanswered accesses of
10_state.md R27 (DESIGN CHOICE, logs 8 and 9). An address that is misaligned or does not exist is left to
`AccessesNoCallMakesFault` (log 13). -/
def Obligations.StwStoresTheWord : Prop :=
  ∀ s : State, (s.regs.rgbBase.toNat + 4 * s.pos.yp.toNat) % 4 = 0 →
    s.regs.rgbBase.toNat + 4 * s.pos.yp.toNat + 4 ≤ 2 ^ s.params.aw →
    (answer s = .ok → ∃ t, exec .stw s = .next t ∧
      t = { s with answers := s.answers.tail, mem := t.mem } ∧
      (s.params.endian = .little → ∀ k < 4,
        t.mem.read (outputAddress s + k) = s.acc.word.extractLsb' (8 * k) 8) ∧
      (s.params.endian = .big → ∀ k < 4,
        t.mem.read (outputAddress s + k) = s.acc.word.extractLsb' (24 - 8 * k) 8) ∧
      (∀ a, a < outputAddress s ∨ outputAddress s + 4 ≤ a → t.mem.read a = s.mem.read a)) ∧
    (answer s = .later → exec .stw s = .next { s with
      answers := s.answers.tail
      outstanding := s.outstanding ++ [{ addr := outputAddress s, word := s.acc.word }] })

/-- The datapath from `PED` to `PACK` computes `PixelWord` of the three bytes and changes only the
accumulators it writes (43_pixel_arithmetic.md R126). -/
def Obligations.DatapathComputesPixelWord : Prop :=
  ∀ s : State, s.status.busy = true →
    ∃ t, runSequence [.ped, .bias, .matr, .matg, .matb, .descale, .clamp, .pack] s = .next t ∧
      t = { s with acc := t.acc } ∧
      t.acc.y = s.acc.y ∧ t.acc.v = s.acc.v ∧ t.acc.u = s.acc.u ∧
      t.acc.word = pixelWord s.acc.y s.acc.u s.acc.v

/-- One pixel step of a call, when the memory answers at once, writes the converted word of its pixel
at its place in the output view, changes no other byte, and moves on by one pixel
(42_traversal_and_fetch.md R108, 41_converter_command.md R90). It speaks of memory while `BUSY = 1`, which
20_memory.md R51 and 00_scope.md R9 leave open: that each step writes the word of its own pixel is the
reference order, the model's choice (DESIGN CHOICE, log 15, unsafe for such claims). -/
def Obligations.PixelStepWritesTheConvertedWord : Prop :=
  ∀ s : State, callInv s → latchInv s → s.status.busy = true → s.answers = [] → s.outstanding = [] →
    ∃ t, pixelStep s = .next t ∧
      (∀ k < 4, t.mem.read (outputAddress s + k) =
        wordByte s.params.endian (convertWord s s.pos.yp.toNat) k) ∧
      (∀ a, a < outputAddress s ∨ outputAddress s + 4 ≤ a → t.mem.read a = s.mem.read a) ∧
      t.pos.yp.toNat = s.pos.yp.toNat + 1 ∧ t.regs = s.regs ∧ t.outstanding = [] ∧ t.ret = s.ret ∧
      t.inputs = s.inputs ∧
      (t.status = s.status ∨ (t.pos.yp.toNat = frameSize s ∧ statusWord t.status = 0x02#64))

/-- Gray axis: with `U = V = 128` the three channels are equal, given by the formula, and do not
decrease in `Y` (43_pixel_arithmetic.md R127). -/
def Obligations.GrayAxis : Prop :=
  (∀ y : Byte, ∃ g : Byte, pixelWord y 128#8 128#8 = packWord g g g ∧
    (g.toNat : Int) = min 255 (1192 * max 0 ((y.toNat : Int) - 16) / 1024 + 2)) ∧
  (∀ y z : Byte, y.toNat ≤ z.toNat →
    ((pixelWord y 128#8 128#8).extractLsb' 0 8).toNat ≤ ((pixelWord z 128#8 128#8).extractLsb' 0 8).toNat)

/-- Every output word is opaque, and luma at or below the pedestal gives the word of `Y = 16`
(43_pixel_arithmetic.md R129, R130). -/
def Obligations.AlphaIsConstantAndLumaFloored : Prop :=
  (∀ y u v : Byte, (pixelWord y u v).extractLsb' 24 8 = 0xFF#8) ∧
  (∀ y u v : Byte, y.toNat < 16 → pixelWord y u v = pixelWord 16#8 u v)

/-! ### Errors -/

/-- A memory error answer to `LDY`, to the first read of `LDVU`, or to `STW` ends the call as a bridge
failure (60_exceptions.md R139, R140, 20_memory.md R56). The second read of `LDVU`, the wait of `FINISH`
and an outstanding write have statements of their own: `SecondChromaReadErrorEntersTheBridgeFailure`,
`FinishOnAFailedWriteIsABridgeFailure`, `MemoryAnswersTheOldestOutstandingWrite`. -/
def Obligations.AccessErrorEntersTheBridgeFailure : Prop :=
  ∀ s : State, failsAt s 0 →
    (s.regs.yuvBase.toNat + s.pos.yp.toNat < 2 ^ s.params.aw →
      ∃ t, exec .ldy s = .next t ∧ bridgeEnding s t) ∧
    (s.pos.x.toNat % 2 = 0 → s.regs.yuvBase.toNat + s.pos.uvp.toNat < 2 ^ s.params.aw →
      ∃ t, exec .ldvu s = .next t ∧ bridgeEnding s t) ∧
    ((s.regs.rgbBase.toNat + 4 * s.pos.yp.toNat) % 4 = 0 →
      s.regs.rgbBase.toNat + 4 * s.pos.yp.toNat + 4 ≤ 2 ^ s.params.aw →
      ∃ t, exec .stw s = .next t ∧ bridgeEnding s t)

/-- The second read of `LDVU` answered with an error is a bridge failure too (42_traversal_and_fetch.md
R103). -/
def Obligations.SecondChromaReadErrorEntersTheBridgeFailure : Prop :=
  ∀ s : State, ¬ failsAt s 0 → failsAt s 1 → s.pos.x.toNat % 2 = 0 →
    s.regs.yuvBase.toNat + s.pos.uvp.toNat + 1 < 2 ^ s.params.aw →
    ∃ t, exec .ldvu s = .next t ∧ bridgeEnding s t

/-- `E_BRIDGE` cannot arise when `MEM_CAN_FAIL` is false (60_exceptions.md R139). -/
def Obligations.NoBridgeFailureWithoutMemCanFail : Prop :=
  ∀ s t : State, s.params.memCanFail = false → s.status.ecode ≠ 5#3 → step s = .next t →
    t.status.ecode ≠ 5#3

/-! ### Whole-machine rules -/

/-- Operands are locked for the call: no step of a busy block changes an operand register, but for
reset (10_state.md R20). -/
def Obligations.OperandsLockedDuringACall : Prop :=
  ∀ s t : State, s.status.busy = true → s.inputs.head? ≠ some .reset → step s = .next t →
    t.regs = s.regs

/-- `STATUS` changes only by a `CONVERT` that arrives on an idle block, by the completion of a call in
the pixel step of its last pixel, by the bridge failure of a call whose memory answers with an error, or
by reset: "Once accepted, a CONVERT ends only by FINISH, by a bridge failure, or by reset"
(41_converter_command.md R94). -/
def Obligations.OnlyThreeEventsEndACall : Prop :=
  ∀ s t : State, callInv s → s.bench = none → step s = .next t →
    t.status = s.status ∨
    (s.status.busy = false ∧
      (∃ x r, s.inputs.head? = some (.transaction x) ∧ decode (transactionBytes x) = .ok (.convert r)) ∧
      (statusWord t.status = 0x01#64 ∨ statusWord t.status = 0x14#64 ∨ statusWord t.status = 0x24#64 ∨
       statusWord t.status = 0x34#64 ∨ statusWord t.status = 0x44#64)) ∨
    (s.status.busy = true ∧ (s.inputs.head? = none ∨ s.inputs.head? = some .turn) ∧
      s.pos.yp.toNat + 1 = frameSize s ∧ statusWord t.status = 0x02#64) ∨
    (s.status.busy = true ∧
      (s.inputs.head? = none ∨ s.inputs.head? = some .turn ∨ s.inputs.head? = some .memAnswer) ∧
      s.params.memCanFail = true ∧ .error ∈ s.answers ∧ statusWord t.status = 0x54#64) ∨
    (s.inputs.head? = some .reset ∧ statusWord t.status = 0x00#64)

/-- No data byte affects the sequence: whatever memory and accumulators hold, the pixel step moves
`pc`, `STATUS` and the access count alike (20_memory.md R55). -/
def Obligations.DataNeverAffectsTheSequence : Prop :=
  ∀ (s t : State) (m : Memory) (a : Accumulator), pixelStep s = .next t →
    ∃ u, pixelStep { s with mem := m, acc := a } = .next u ∧
      u.pos = t.pos ∧ u.status = t.status ∧ u.answers = t.answers ∧ u.regs = t.regs ∧
      u.outstanding.map Posted.addr = t.outstanding.map Posted.addr

/-- A step writes no byte outside the output view, unless it is a store of the host
(20_memory.md R44, R49, 60_exceptions.md R140). -/
def Obligations.OnlyTheOutputViewIsWritten : Prop :=
  ∀ s t : State, callInv s → s.bench = none → (∀ a b, s.inputs.head? ≠ some (.hostStore a b)) →
    step s = .next t → ∀ a, inOutputView s a = false → t.mem.read a = s.mem.read a

/-- During a call no step changes a byte of the input view, host stores included, since the host has
no such move (20_memory.md R49, R53). -/
def Obligations.InputViewUnchangedDuringACall : Prop :=
  ∀ s t : State, callInv s → s.bench = none → s.status.busy = true → step s = .next t →
    ∀ a, inInputView s a = true → t.mem.read a = s.mem.read a

/-- A call never makes an access that does not exist or is misaligned: its pixel step always has a
next state (20_memory.md R45, 41_converter_command.md R87). -/
def Obligations.PixelStepNeverStops : Prop :=
  ∀ s : State, callInv s → s.status.busy = true → ∃ t, pixelStep s = .next t

/-- The output is a function of the dimensions and the input bytes alone: two frames of one size with
equal input bytes have equal words, wherever their views lie (41_converter_command.md R91). -/
def Obligations.OutputDependsOnDimensionsAndInputOnly : Prop :=
  ∀ s t : State, ¬ badDimension s →
    t.regs.width = s.regs.width → t.regs.height = s.regs.height →
    (∀ k < frameSize s * 3 / 2, inputByte t k = inputByte s k) →
    ∀ p < frameSize s, convertWord t p = convertWord s p

/-- Host loads and stores of memory: refused where a call forbids them, otherwise done
(20_memory.md R53, 93_implementation_defined.md U5; log 12), one byte at a time (DESIGN CHOICE, log 23). -/
def Obligations.HostAccessesDuringACall : Prop :=
  ∀ (s : State) (a : Nat) (b : Byte) (rest : List Input), s.bench = none →
    (s.inputs = .hostStore a b :: rest →
      (s.status.busy = true → inInputView s a = true ∨ inOutputView s a = true →
        step s = .refused .hostBreaksCall) ∧
      (s.status.busy = false ∨ (inInputView s a = false ∧ inOutputView s a = false) →
        a < 2 ^ s.params.aw →
        ∃ t, step s = .next t ∧ t = { s with inputs := rest, mem := t.mem } ∧
          t.mem.read a = b ∧ ∀ c, c ≠ a → t.mem.read c = s.mem.read c)) ∧
    (s.inputs = .hostLoad a :: rest →
      (s.status.busy = true → inOutputView s a = true → step s = .refused .hostBreaksCall) ∧
      (s.status.busy = false ∨ inOutputView s a = false → a < 2 ^ s.params.aw →
        step s = .next { s with inputs := rest, ret := (s.mem.read a).setWidth 64 }))

/-! ### Reset -/

/-- What reset leaves: the operand registers 0 and `STATUS = 0x00` (10_state.md R30), memory with
nothing listed; and the invariants hold there. -/
def Obligations.ResetStateMeetsTheInvariants : Prop :=
  State.reset.regs = { width := 0#32, height := 0#32, yuvBase := 0#64, yuvLen := 0#64, rgbBase := 0#64,
                       rgbCap := 0#64 } ∧
  statusWord State.reset.status = 0x00#64 ∧ State.reset.outstanding = [] ∧
  State.reset.bench = none ∧ State.reset.mem.wf = true ∧ basesBounded State.reset ∧ statusLegal State.reset.status = true ∧ callInv State.reset ∧
  latchInv State.reset ∧ frameInv State.reset

/-- A `CONVERT` straight after reset fails with `E_NULL` and touches nothing but `STATUS`
(10_state.md R30, 95_test_vectors.md K1). -/
def Obligations.ConvertAfterResetFailsWithNull : Prop :=
  ∀ r : BitVec 63, ∃ t, exec (.convert r) State.reset = .next t ∧
    t = { State.reset with status := t.status } ∧ statusWord t.status = 0x14#64

/-- Reset at any time: operand registers 0, `STATUS = 0x00`, no access outstanding; memory untouched
when idle, and outside the output words of a call under way (70_reset_and_hazards.md R155, R157). -/
def Obligations.ResetAtAnyTime : Prop :=
  ∀ (s : State) (rest : List Input), s.bench = none → s.inputs = .reset :: rest →
    ∃ t, step s = .next t ∧ t.regs = resetRegs ∧ statusWord t.status = 0x00#64 ∧ t.outstanding = [] ∧
      t.inputs = rest ∧ t.params = s.params ∧
      (s.status.busy = false → t.mem = s.mem) ∧
      (s.status.busy = true → ∀ a, ¬ inOutputWords s a → t.mem.read a = s.mem.read a) ∧
      (s.status.busy = true → ∀ a, inOutputWords s a → t.mem.read a = Config.freeByte s.draws a)

/-! ### Invariants that every step keeps -/

/-- Every step, from every state, keeps memory in its canonical form. -/
def Obligations.StepKeepsMemoryCanonical : Prop :=
  ∀ s t : State, s.mem.wf = true → step s = .next t → t.mem.wf = true

/-- Every step, from every state, keeps `STATUS` at one of its eight legal values (10_state.md R18). -/
def Obligations.StepKeepsStatusLegal : Prop :=
  ∀ s t : State, statusLegal s.status = true → step s = .next t → statusLegal t.status = true

/-- The open parameters never change (00_scope.md R4). -/
def Obligations.StepKeepsTheParameters : Prop :=
  ∀ s t : State, step s = .next t → t.params = s.params

/-- Every step keeps the sequencer's invariant: the cursor of 42_traversal_and_fetch.md R110, the
ranges of 10_state.md R21, the accepted operands, and no access outstanding when idle
(20_memory.md R52). -/
def Obligations.StepKeepsTheCallInvariant : Prop :=
  ∀ s t : State, callInv s → s.bench = none → step s = .next t → callInv t

/-- Every step keeps the chroma latch: at an odd `X` the accumulator holds the pair of the pixel
before (10_state.md R23, 42_traversal_and_fetch.md R104). -/
def Obligations.StepKeepsTheChromaLatch : Prop :=
  ∀ s t : State, callInv s → s.bench = none → latchInv s → step s = .next t → latchInv t

/-- Every step keeps the converted part of the frame: each pixel already passed has its
`ConvertFrame` word, in memory or under way. 41_converter_command.md R90 says so of a completed call
only; which words are converted while `BUSY = 1` is open (20_memory.md R51, 00_scope.md R9), and this
invariant speaks of the model's order: the reference order (DESIGN CHOICE, log 15, unsafe for such claims)
with outstanding writes performed oldest first (DESIGN CHOICE, log 9). -/
def Obligations.StepKeepsTheConvertedPart : Prop :=
  ∀ s t : State, callInv s → s.bench = none → latchInv s → frameInv s → step s = .next t → frameInv t

/-- A step that completes a call leaves every word of the frame converted, and no access outstanding
(41_converter_command.md R90, 20_memory.md R52). `STATUS` is legal (10_state.md R18), as
`StepKeepsStatusLegal` says every step keeps it: no call runs with `DONE` set. -/
def Obligations.CompletedCallHoldsTheFrame : Prop :=
  ∀ s t : State, statusLegal s.status = true → callInv s → s.bench = none → latchInv s → frameInv s →
    s.status.busy = true → step s = .next t → t.status.done = true →
    t.outstanding = [] ∧ ∀ p < frameSize s, holdsPixel t t.mem p

/-- With a memory that answers every access at once (no answer listed, log 8), a running call ends after
exactly the pixels it still has to visit, `W·H` from its start, and not before
(42_traversal_and_fetch.md R109, 41_converter_command.md R94). -/
def Obligations.CallEndsAfterItsPixels : Prop :=
  ∀ s : State, callInv s → s.bench = none → s.status.busy = true → s.inputs = [] → s.answers = [] →
    ∃ t, Sys2Proof.core.run (frameSize s - s.pos.yp.toNat) s = .next t ∧ statusWord t.status = 0x02#64 ∧
      ∀ n < frameSize s - s.pos.yp.toNat, ∃ u, Sys2Proof.core.run n s = .next u ∧ u.status.busy = true

/-! ### Outstanding writes, register widths, accesses outside a call -/

/-- The memory answers the oldest outstanding write (10_state.md R27): with success its word is
performed, in the byte order of `HOST_ENDIAN` (20_memory.md R44), and nothing else changes; with an error
the call ends as a bridge failure (20_memory.md R56, 60_exceptions.md R139, R140). The input, the answer
list and the order oldest first are the model's choice (DESIGN CHOICE, logs 1, 8 and 9). -/
def Obligations.MemoryAnswersTheOldestOutstandingWrite : Prop :=
  ∀ (s : State) (rest : List Input), s.bench = none → s.inputs = .memAnswer :: rest →
    (s.outstanding = [] → step s = .next { s with inputs := rest }) ∧
    (∀ (p : Posted) (ps : List Posted), s.outstanding = p :: ps →
      (failsAt s 0 → ∃ t, step s = .next t ∧ bridgeEnding { s with inputs := rest } t) ∧
      (answer s = .ok → ∃ t, step s = .next t ∧
        t = { s with inputs := rest, answers := s.answers.tail, outstanding := ps, mem := t.mem } ∧
        (s.params.endian = .little → ∀ k < 4, t.mem.read (p.addr + k) = p.word.extractLsb' (8 * k) 8) ∧
        (s.params.endian = .big → ∀ k < 4, t.mem.read (p.addr + k) = p.word.extractLsb' (24 - 8 * k) 8) ∧
        (∀ a, a < p.addr ∨ p.addr + 4 ≤ a → t.mem.read a = s.mem.read a)) ∧
      (answer s = .later → step s = .next { s with inputs := rest, answers := s.answers.tail }))

/-- Every step, from every state, keeps both base registers at `AW` bits (10_state.md R13, R15): the bits
of their slots at and above `AW` stay zero, so that a read of them is zero-extended (R19). -/
def Obligations.StepKeepsTheBasesInTheirWidth : Prop :=
  ∀ s t : State, basesBounded s → step s = .next t → basesBounded t

/-- Where a micro-operation or a host access stops: at an address that does not exist (20_memory.md R40)
and at a misaligned word write, which "the block therefore never issues" (R45). No call makes such an
access; that the model faults is DEDUCED (log 13). -/
def Obligations.AccessesNoCallMakesFault : Prop :=
  ∀ s : State,
    (2 ^ s.params.aw ≤ lumaAddress s → exec .ldy s = .fault .noSuchAddress) ∧
    (s.pos.x.toNat % 2 = 0 → 2 ^ s.params.aw ≤ chromaAddress s → exec .ldvu s = .fault .noSuchAddress) ∧
    (s.pos.x.toNat % 2 = 0 → chromaAddress s + 1 = 2 ^ s.params.aw → answer s ≠ .error →
      exec .ldvu s = .fault .noSuchAddress) ∧
    (outputAddress s % 4 ≠ 0 → exec .stw s = .fault .misalignedWrite) ∧
    (outputAddress s % 4 = 0 → 2 ^ s.params.aw < outputAddress s + 4 →
      exec .stw s = .fault .noSuchAddress) ∧
    (∀ (a : Nat) (rest : List Input), s.bench = none → 2 ^ s.params.aw ≤ a →
      s.status.busy = false ∨ (inInputView s a = false ∧ inOutputView s a = false) →
      ((∃ b, s.inputs = .hostStore a b :: rest) ∨ s.inputs = .hostLoad a :: rest) →
      step s = .fault .noSuchAddress)
end

