-- ==== Sys2Proof/Laws/State.lean ====
section
/-! SUPPORT. What each named update of the state leaves in each field, one lemma per field per update. -/

namespace Sys2Proof.Machine

/-! ### answered -/

@[simp] theorem answered_regs (s : State) : (answered s).regs = s.regs := rfl
@[simp] theorem answered_status (s : State) : (answered s).status = s.status := rfl
@[simp] theorem answered_pos (s : State) : (answered s).pos = s.pos := rfl
@[simp] theorem answered_acc (s : State) : (answered s).acc = s.acc := rfl
@[simp] theorem answered_mem (s : State) : (answered s).mem = s.mem := rfl
@[simp] theorem answered_outstanding (s : State) : (answered s).outstanding = s.outstanding := rfl
@[simp] theorem answered_answers (s : State) : (answered s).answers = s.answers.tail := rfl
@[simp] theorem answered_inputs (s : State) : (answered s).inputs = s.inputs := rfl
@[simp] theorem answered_ret (s : State) : (answered s).ret = s.ret := rfl
@[simp] theorem answered_bench (s : State) : (answered s).bench = s.bench := rfl
@[simp] theorem answered_draws (s : State) : (answered s).draws = s.draws := rfl
@[simp] theorem answered_params (s : State) : (answered s).params = s.params := rfl

/-! ### raiseError -/

@[simp] theorem raiseError_regs (c : BitVec 3) (s : State) : (raiseError c s).regs = s.regs := rfl
@[simp] theorem raiseError_status (c : BitVec 3) (s : State) : (raiseError c s).status = statusError c := rfl
@[simp] theorem raiseError_pos (c : BitVec 3) (s : State) : (raiseError c s).pos = s.pos := rfl
@[simp] theorem raiseError_acc (c : BitVec 3) (s : State) : (raiseError c s).acc = s.acc := rfl
@[simp] theorem raiseError_mem (c : BitVec 3) (s : State) : (raiseError c s).mem = s.mem := rfl
@[simp] theorem raiseError_outstanding (c : BitVec 3) (s : State) : (raiseError c s).outstanding = s.outstanding := rfl
@[simp] theorem raiseError_answers (c : BitVec 3) (s : State) : (raiseError c s).answers = s.answers := rfl
@[simp] theorem raiseError_inputs (c : BitVec 3) (s : State) : (raiseError c s).inputs = s.inputs := rfl
@[simp] theorem raiseError_ret (c : BitVec 3) (s : State) : (raiseError c s).ret = s.ret := rfl
@[simp] theorem raiseError_bench (c : BitVec 3) (s : State) : (raiseError c s).bench = s.bench := rfl
@[simp] theorem raiseError_draws (c : BitVec 3) (s : State) : (raiseError c s).draws = s.draws := rfl
@[simp] theorem raiseError_params (c : BitVec 3) (s : State) : (raiseError c s).params = s.params := rfl

/-! ### unspecifyOutput -/

@[simp] theorem unspecifyOutput_regs (s : State) : (unspecifyOutput s).regs = s.regs := rfl
@[simp] theorem unspecifyOutput_status (s : State) : (unspecifyOutput s).status = s.status := rfl
@[simp] theorem unspecifyOutput_pos (s : State) : (unspecifyOutput s).pos = s.pos := rfl
@[simp] theorem unspecifyOutput_acc (s : State) : (unspecifyOutput s).acc = s.acc := rfl
@[simp] theorem unspecifyOutput_mem (s : State) : (unspecifyOutput s).mem = s.mem.unspecify s.draws s.regs.rgbBase.toNat (4 * frameSize s) := rfl
@[simp] theorem unspecifyOutput_outstanding (s : State) : (unspecifyOutput s).outstanding = s.outstanding := rfl
@[simp] theorem unspecifyOutput_answers (s : State) : (unspecifyOutput s).answers = s.answers := rfl
@[simp] theorem unspecifyOutput_inputs (s : State) : (unspecifyOutput s).inputs = s.inputs := rfl
@[simp] theorem unspecifyOutput_ret (s : State) : (unspecifyOutput s).ret = s.ret := rfl
@[simp] theorem unspecifyOutput_bench (s : State) : (unspecifyOutput s).bench = s.bench := rfl
@[simp] theorem unspecifyOutput_draws (s : State) : (unspecifyOutput s).draws = s.draws + 1 := rfl
@[simp] theorem unspecifyOutput_params (s : State) : (unspecifyOutput s).params = s.params := rfl

/-! ### raiseBridge -/

@[simp] theorem raiseBridge_regs (s : State) : (raiseBridge s).regs = s.regs := rfl
@[simp] theorem raiseBridge_status (s : State) : (raiseBridge s).status = statusError codeBridge := rfl
@[simp] theorem raiseBridge_pos (s : State) : (raiseBridge s).pos = s.pos := rfl
@[simp] theorem raiseBridge_acc (s : State) : (raiseBridge s).acc = s.acc := rfl
@[simp] theorem raiseBridge_mem (s : State) : (raiseBridge s).mem = s.mem.unspecify s.draws s.regs.rgbBase.toNat (4 * frameSize s) := rfl
@[simp] theorem raiseBridge_outstanding (s : State) : (raiseBridge s).outstanding = [] := rfl
@[simp] theorem raiseBridge_answers (s : State) : (raiseBridge s).answers = s.answers := rfl
@[simp] theorem raiseBridge_inputs (s : State) : (raiseBridge s).inputs = s.inputs := rfl
@[simp] theorem raiseBridge_ret (s : State) : (raiseBridge s).ret = s.ret := rfl
@[simp] theorem raiseBridge_bench (s : State) : (raiseBridge s).bench = s.bench := rfl
@[simp] theorem raiseBridge_draws (s : State) : (raiseBridge s).draws = s.draws + 1 := rfl
@[simp] theorem raiseBridge_params (s : State) : (raiseBridge s).params = s.params := rfl

/-! ### initFrame -/

@[simp] theorem initFrame_regs (s : State) : (initFrame s).regs = s.regs := rfl
@[simp] theorem initFrame_status (s : State) : (initFrame s).status = s.status := rfl
@[simp] theorem initFrame_pos (s : State) : (initFrame s).pos = { s.pos with fs := BitVec.ofNat 64 (frameSize s), i := 0#32, yp := 0#64 } := rfl
@[simp] theorem initFrame_acc (s : State) : (initFrame s).acc = s.acc := rfl
@[simp] theorem initFrame_mem (s : State) : (initFrame s).mem = s.mem := rfl
@[simp] theorem initFrame_outstanding (s : State) : (initFrame s).outstanding = s.outstanding := rfl
@[simp] theorem initFrame_answers (s : State) : (initFrame s).answers = s.answers := rfl
@[simp] theorem initFrame_inputs (s : State) : (initFrame s).inputs = s.inputs := rfl
@[simp] theorem initFrame_ret (s : State) : (initFrame s).ret = s.ret := rfl
@[simp] theorem initFrame_bench (s : State) : (initFrame s).bench = s.bench := rfl
@[simp] theorem initFrame_draws (s : State) : (initFrame s).draws = s.draws := rfl
@[simp] theorem initFrame_params (s : State) : (initFrame s).params = s.params := rfl

/-! ### rowStart -/

@[simp] theorem rowStart_regs (s : State) : (rowStart s).regs = s.regs := rfl
@[simp] theorem rowStart_status (s : State) : (rowStart s).status = s.status := rfl
@[simp] theorem rowStart_pos (s : State) : (rowStart s).pos = { s.pos with
      uvp := BitVec.ofNat 64 (s.pos.fs.toNat + s.pos.i.toNat / 2 * s.regs.width.toNat), x := 0#32 } := rfl
@[simp] theorem rowStart_acc (s : State) : (rowStart s).acc = s.acc := rfl
@[simp] theorem rowStart_mem (s : State) : (rowStart s).mem = s.mem := rfl
@[simp] theorem rowStart_outstanding (s : State) : (rowStart s).outstanding = s.outstanding := rfl
@[simp] theorem rowStart_answers (s : State) : (rowStart s).answers = s.answers := rfl
@[simp] theorem rowStart_inputs (s : State) : (rowStart s).inputs = s.inputs := rfl
@[simp] theorem rowStart_ret (s : State) : (rowStart s).ret = s.ret := rfl
@[simp] theorem rowStart_bench (s : State) : (rowStart s).bench = s.bench := rfl
@[simp] theorem rowStart_draws (s : State) : (rowStart s).draws = s.draws := rfl
@[simp] theorem rowStart_params (s : State) : (rowStart s).params = s.params := rfl

/-! ### resetTurn -/

@[simp] theorem resetTurn_regs (s : State) : (resetTurn s).regs = resetRegs := rfl
@[simp] theorem resetTurn_status (s : State) : (resetTurn s).status = resetStatus := rfl
@[simp] theorem resetTurn_pos (s : State) : (resetTurn s).pos = resetPosition := rfl
@[simp] theorem resetTurn_acc (s : State) : (resetTurn s).acc = resetAccumulator := rfl
@[simp] theorem resetTurn_outstanding (s : State) : (resetTurn s).outstanding = [] := rfl
@[simp] theorem resetTurn_answers (s : State) : (resetTurn s).answers = s.answers := rfl
@[simp] theorem resetTurn_inputs (s : State) : (resetTurn s).inputs = s.inputs := rfl
@[simp] theorem resetTurn_ret (s : State) : (resetTurn s).ret = 0#64 := rfl
@[simp] theorem resetTurn_bench (s : State) : (resetTurn s).bench = none := rfl
@[simp] theorem resetTurn_params (s : State) : (resetTurn s).params = s.params := rfl

theorem resetTurn_mem_idle (s : State) (h : s.status.busy = false) : (resetTurn s).mem = s.mem := by
  simp [resetTurn, h]

theorem resetTurn_mem_busy (s : State) (h : s.status.busy = true) :
    (resetTurn s).mem = s.mem.unspecify s.draws s.regs.rgbBase.toNat (4 * frameSize s) := by
  simp [resetTurn, h]

/-! ### withFetchWord -/

@[simp] theorem withFetchWord_regs (s : State) (n w : Nat) : (s.withFetchWord n w).regs = s.regs := by
  unfold State.withFetchWord; split <;> rfl
@[simp] theorem withFetchWord_status (s : State) (n w : Nat) : (s.withFetchWord n w).status = s.status := by
  unfold State.withFetchWord; split <;> rfl
@[simp] theorem withFetchWord_pos (s : State) (n w : Nat) : (s.withFetchWord n w).pos = s.pos := by
  unfold State.withFetchWord; split <;> rfl
@[simp] theorem withFetchWord_acc (s : State) (n w : Nat) : (s.withFetchWord n w).acc = s.acc := by
  unfold State.withFetchWord; split <;> rfl
@[simp] theorem withFetchWord_mem (s : State) (n w : Nat) : (s.withFetchWord n w).mem = s.mem := by
  unfold State.withFetchWord; split <;> rfl
@[simp] theorem withFetchWord_outstanding (s : State) (n w : Nat) : (s.withFetchWord n w).outstanding = s.outstanding := by
  unfold State.withFetchWord; split <;> rfl
@[simp] theorem withFetchWord_answers (s : State) (n w : Nat) : (s.withFetchWord n w).answers = s.answers := by
  unfold State.withFetchWord; split <;> rfl
@[simp] theorem withFetchWord_ret (s : State) (n w : Nat) : (s.withFetchWord n w).ret = s.ret := by
  unfold State.withFetchWord; split <;> rfl
@[simp] theorem withFetchWord_draws (s : State) (n w : Nat) : (s.withFetchWord n w).draws = s.draws := by
  unfold State.withFetchWord; split <;> rfl
@[simp] theorem withFetchWord_params (s : State) (n w : Nat) : (s.withFetchWord n w).params = s.params := by
  unfold State.withFetchWord; split <;> rfl

/-- A micro-operation code is laid on the bench. -/
theorem withFetchWord_uop (s : State) {n : Nat} (h : n ≤ 8) (w : Nat) :
    s.withFetchWord n w = { s with bench := some (BitVec.ofNat 4 w) } := if_pos h

/-- A transaction is put first among the inputs. -/
theorem withFetchWord_transaction (s : State) {n : Nat} (h : 8 < n) (w : Nat) :
    s.withFetchWord n w = { s with inputs := .transaction (BitVec.ofNat 68 w) :: s.inputs } :=
  if_neg (by omega)

/-! ### Reset -/

@[simp] theorem reset_regs : State.reset.regs = resetRegs := rfl
@[simp] theorem reset_status : State.reset.status = resetStatus := rfl
@[simp] theorem reset_pos : State.reset.pos = resetPosition := rfl
@[simp] theorem reset_acc : State.reset.acc = resetAccumulator := rfl
@[simp] theorem reset_mem : State.reset.mem = [] := rfl
@[simp] theorem reset_outstanding : State.reset.outstanding = [] := rfl
@[simp] theorem reset_answers : State.reset.answers = [] := rfl
@[simp] theorem reset_inputs : State.reset.inputs = [] := rfl
@[simp] theorem reset_ret : State.reset.ret = 0#64 := rfl
@[simp] theorem reset_bench : State.reset.bench = none := rfl
@[simp] theorem reset_draws : State.reset.draws = 0 := rfl
@[simp] theorem reset_params : State.reset.params = Config.defaults := rfl

/-! ### Flags and answers -/

@[simp] theorem statusBusy_busy : statusBusy.busy = true := rfl
@[simp] theorem statusDone_busy : statusDone.busy = false := rfl
@[simp] theorem statusError_busy (c : BitVec 3) : (statusError c).busy = false := rfl
@[simp] theorem resetStatus_busy : resetStatus.busy = false := rfl

/-- With no answer listed every access succeeds. -/
theorem answer_of_nil {s : State} (h : s.answers = []) : answer s = .ok := by
  simp [answer, h]

/-- The next access fails exactly when the next listed answer is an error and the memory can fail. -/
theorem answer_eq_error_iff (s : State) :
    answer s = .error ↔ s.answers.head? = some .error ∧ s.params.memCanFail = true := by
  unfold answer
  rcases s.answers with _ | ⟨a, as⟩
  · simp
  · cases a <;> simp

end Sys2Proof.Machine
end

