-- ==== Sys2Proof/Laws/Memory.lean ====
section
/-! SUPPORT. Memory: what a read gives after each write, and that every write keeps the one canonical
form (20_memory.md R40). -/

namespace Sys2Proof.Machine

/-! ### Reading after writing -/

theorem Memory.read_erase (m : Memory) (a b : Nat) :
    (m.erase a).read b = if b = a then Config.unlistedByte else m.read b := by
  induction m with
  | nil => simp [Memory.erase, Memory.read]
  | cons c m ih =>
    by_cases hc : c.1 = a
    · rw [Memory.erase, if_pos hc, ih, Memory.read]
      by_cases hb : b = a
      · simp [hb]
      · have : ¬ c.1 = b := fun h => hb (h ▸ hc)
        simp [hb, this]
    · by_cases hb : c.1 = b
      · subst hb
        simp [Memory.erase, hc, Memory.read]
      · simp [Memory.erase, hc, Memory.read, hb, ih]

theorem Memory.read_insert (m : Memory) (e : Host.Cell) (b : Nat) (h : m.read e.1 = Config.unlistedByte)
    (hm : ∀ c ∈ m, c.1 ≠ e.1) :
    (m.insert e).read b = if b = e.1 then e.2 else m.read b := by
  induction m with
  | nil => simp only [Memory.insert, Memory.read, eq_comm]
  | cons c m ih =>
    have hc : c.1 ≠ e.1 := hm c (by simp)
    have hm' : ∀ d ∈ m, d.1 ≠ e.1 := fun d hd => hm d (by simp [hd])
    have hr : Memory.read m e.1 = Config.unlistedByte := by simpa [Memory.read, hc] using h
    by_cases hlt : e.1 < c.1
    · simp only [Memory.insert, hlt, if_true, Memory.read, eq_comm]
    · simp only [Memory.insert, hlt, if_false, Memory.read, ih hr hm']
      by_cases hb : c.1 = b
      · subst hb
        simp [hc]
      · simp [hb]

theorem Memory.erase_addr (m : Memory) (a : Nat) : ∀ c ∈ m.erase a, c.1 ≠ a := by
  induction m with
  | nil => simp [Memory.erase]
  | cons c m ih =>
    by_cases hc : c.1 = a
    · simpa [Memory.erase, hc] using ih
    · intro d hd
      have hd' : d = c ∨ d ∈ Memory.erase m a := by simpa [Memory.erase, hc] using hd
      rcases hd' with rfl | h
      · exact hc
      · exact ih d h

/-- A read after a write: the byte written at its own address, and what was there anywhere else. It
holds of every memory, canonical or not. -/
theorem Memory.read_write (m : Memory) (a : Nat) (b : Byte) (k : Nat) :
    (m.write a b).read k = if k = a then b else m.read k := by
  by_cases hb : b = Config.unlistedByte
  · simp [Memory.write, hb, Memory.read_erase]
  · have he : (m.erase a).read a = Config.unlistedByte := by simp [Memory.read_erase]
    simp only [Memory.write, hb, if_false]
    rw [Memory.read_insert _ _ _ he (Memory.erase_addr m a), Memory.read_erase]
    by_cases hk : k = a <;> simp [hk]

/-- A word write changes exactly the four bytes from its address on (20_memory.md R44). -/
theorem Memory.read_writeWord (m : Memory) (e : Endian) (a : Nat) (w : Word) (k : Nat) :
    (m.writeWord e a w).read k =
      if k = a + 3 then wordByte e w 3 else if k = a + 2 then wordByte e w 2
      else if k = a + 1 then wordByte e w 1 else if k = a then wordByte e w 0 else m.read k := by
  simp only [Memory.writeWord, Memory.read_write]

theorem Memory.read_writeWord_outside (m : Memory) (e : Endian) (a : Nat) (w : Word) (k : Nat)
    (h : k < a ∨ a + 4 ≤ k) : (m.writeWord e a w).read k = m.read k := by
  rw [Memory.read_writeWord, if_neg (by omega), if_neg (by omega), if_neg (by omega), if_neg (by omega)]

theorem Memory.read_writeWord_inside (m : Memory) (e : Endian) (a : Nat) (w : Word) (k : Nat) (h : k < 4) :
    (m.writeWord e a w).read (a + k) = wordByte e w k := by
  rw [Memory.read_writeWord]
  obtain rfl | rfl | rfl | rfl : k = 0 ∨ k = 1 ∨ k = 2 ∨ k = 3 := by omega
  all_goals simp

/-- Free bytes stand at exactly the addresses that were made unspecified. -/
theorem Memory.read_unspecify (m : Memory) (n a k b : Nat) :
    (m.unspecify n a k).read b = if a ≤ b ∧ b < a + k then Config.freeByte n b else m.read b := by
  induction k with
  | zero =>
    rw [Memory.unspecify, if_neg (by omega)]
  | succ k ih =>
    rw [Memory.unspecify, Memory.read_write, ih]
    by_cases hb : b = a + k
    · subst hb
      rw [if_pos rfl, if_pos (by omega)]
    · rw [if_neg hb]
      by_cases h : a ≤ b ∧ b < a + k
      · rw [if_pos h, if_pos (by omega)]
      · rw [if_neg h, if_neg (by omega)]

/-! ### The canonical form -/

theorem Memory.risingFrom_of_lt {k k' : Nat} (h : k' < k) :
    ∀ m : Memory, Memory.risingFrom (some k) m = true → Memory.risingFrom (some k') m = true
  | [], _ => rfl
  | c :: m, hm => by
    simp only [Memory.risingFrom, Bool.and_eq_true, decide_eq_true_eq] at hm ⊢
    exact ⟨by omega, hm.2⟩

theorem Memory.rising_erase (a : Nat) :
    ∀ (k : Nat) (m : Memory), Memory.risingFrom (some k) m = true →
      Memory.risingFrom (some k) (m.erase a) = true
  | _, [], _ => rfl
  | k, c :: m, hm => by
    simp only [Memory.risingFrom, Bool.and_eq_true, decide_eq_true_eq] at hm
    by_cases hc : c.1 = a
    · simpa [Memory.erase, hc] using
        Memory.rising_erase a k m (Memory.risingFrom_of_lt hm.1 m hm.2)
    · simp [Memory.erase, hc, Memory.risingFrom, hm.1, Memory.rising_erase a c.1 m hm.2]

theorem Memory.rising_insert (e : Host.Cell) :
    ∀ (k : Nat) (m : Memory), k < e.1 → (∀ c ∈ m, c.1 ≠ e.1) → Memory.risingFrom (some k) m = true →
      Memory.risingFrom (some k) (m.insert e) = true
  | _, [], hk, _, _ => by simp [Memory.insert, Memory.risingFrom, hk]
  | k, c :: m, hk, hne, hm => by
    simp only [Memory.risingFrom, Bool.and_eq_true, decide_eq_true_eq] at hm
    have hc : c.1 ≠ e.1 := hne c (by simp)
    by_cases h : e.1 < c.1
    · simp [Memory.insert, h, Memory.risingFrom, hk, hm.2]
    · have := Memory.rising_insert e c.1 m (by omega) (fun d hd => hne d (by simp [hd])) hm.2
      simp [Memory.insert, h, Memory.risingFrom, hm.1, this]

/-- The whole memory rises exactly when it rises after its first entry. -/
theorem Memory.rising_cons (c : Host.Cell) (m : Memory) :
    Memory.risingFrom none (c :: m) = Memory.risingFrom (some c.1) m := rfl

theorem Memory.rising_none_erase (a : Nat) (m : Memory) (h : Memory.risingFrom none m = true) :
    Memory.risingFrom none (m.erase a) = true := by
  induction m with
  | nil => rfl
  | cons c m ih =>
    rw [Memory.rising_cons] at h
    by_cases hc : c.1 = a
    · rw [Memory.erase, if_pos hc]
      refine ih ?_
      cases m with
      | nil => rfl
      | cons d m =>
        simp only [Memory.risingFrom, Bool.and_eq_true] at h ⊢
        exact h.2
    · rw [Memory.erase, if_neg hc, Memory.rising_cons]
      exact Memory.rising_erase a c.1 m h

theorem Memory.rising_none_insert (e : Host.Cell) (m : Memory) (hne : ∀ c ∈ m, c.1 ≠ e.1)
    (h : Memory.risingFrom none m = true) : Memory.risingFrom none (m.insert e) = true := by
  cases m with
  | nil => rfl
  | cons c m =>
    rw [Memory.rising_cons] at h
    have hc : c.1 ≠ e.1 := hne c (by simp)
    by_cases hlt : e.1 < c.1
    · simp [Memory.insert, hlt, Memory.risingFrom, h]
    · simp only [Memory.insert, hlt, if_false, Memory.risingFrom]
      exact Memory.rising_insert e c.1 m (by omega) (fun d hd => hne d (by simp [hd])) h

theorem Memory.all_erase (p : Host.Cell → Bool) (a : Nat) (m : Memory) (h : m.all p = true) :
    (m.erase a).all p = true := by
  induction m with
  | nil => rfl
  | cons c m ih =>
    simp only [List.all_cons, Bool.and_eq_true] at h
    by_cases hc : c.1 = a
    · simpa [Memory.erase, hc] using ih h.2
    · simp only [Memory.erase, hc, if_false, List.all_cons, h.1, ih h.2, Bool.and_self]

theorem Memory.all_insert (p : Host.Cell → Bool) (e : Host.Cell) (m : Memory) (he : p e = true)
    (h : m.all p = true) : (m.insert e).all p = true := by
  induction m with
  | nil => simp [Memory.insert, he]
  | cons c m ih =>
    simp only [List.all_cons, Bool.and_eq_true] at h
    by_cases hlt : e.1 < c.1
    · simp only [Memory.insert, hlt, if_true, List.all_cons, he, h.1, h.2, Bool.and_self]
    · simp only [Memory.insert, hlt, if_false, List.all_cons, h.1, ih h.2, Bool.and_self]

/-- Writing a byte keeps the canonical form. -/
theorem Memory.wf_write (m : Memory) (a : Nat) (b : Byte) (h : m.wf = true) : (m.write a b).wf = true := by
  simp only [Memory.wf, Bool.and_eq_true] at h
  have hr := Memory.rising_none_erase a m h.1
  have ha := Memory.all_erase _ a m h.2
  by_cases hb : b = Config.unlistedByte
  · simp only [Memory.write, hb, if_true, Memory.wf, Bool.and_eq_true]
    exact ⟨hr, ha⟩
  · simp only [Memory.write, hb, if_false, Memory.wf, Bool.and_eq_true]
    exact ⟨Memory.rising_none_insert _ _ (Memory.erase_addr m a) hr,
      Memory.all_insert _ _ _ (by simpa using hb) ha⟩

/-- Writing a word keeps the canonical form. -/
theorem Memory.wf_writeWord (m : Memory) (e : Endian) (a : Nat) (w : Word) (h : m.wf = true) :
    (m.writeWord e a w).wf = true :=
  Memory.wf_write _ _ _ (Memory.wf_write _ _ _ (Memory.wf_write _ _ _ (Memory.wf_write _ _ _ h)))

/-- Making bytes unspecified keeps the canonical form, whatever the free bytes are. -/
theorem Memory.wf_unspecify (m : Memory) (n a k : Nat) (h : m.wf = true) :
    (m.unspecify n a k).wf = true := by
  induction k with
  | zero => exact h
  | succ k ih => exact Memory.wf_write _ _ _ ih

/-- Memory after reset lists nothing and has the canonical form. -/
theorem reset_mem_wf : State.reset.mem.wf = true := rfl

end Sys2Proof.Machine
end

