-- ==== Sys2Proof/Laws/Ops.lean ====
section
/-! SUPPORT. For each shared operation, once, everything it can do. A proof cites these and does not
unfold the operation again. -/

namespace Sys2Proof.Machine

/-! ### Accesses -/

/-- A read gives the byte at an address that exists, or is answered with an error, or there is no
such address (20_memory.md R43). -/
theorem memRead_cases (a : Nat) (s : State) :
    (a < 2 ^ s.params.aw ∧ answer s ≠ .error ∧ memRead a s = .ok (s.mem.read a) (answered s)) ∨
    (a < 2 ^ s.params.aw ∧ answer s = .error ∧ memRead a s = .error (answered s)) ∨
    (2 ^ s.params.aw ≤ a ∧ memRead a s = .fault .noSuchAddress) := by
  unfold memRead
  by_cases h : a < 2 ^ s.params.aw
  · by_cases he : answer s = .error
    · exact .inr (.inl ⟨h, he, by simp [h, he]⟩)
    · exact .inl ⟨h, he, by simp [h, he]⟩
  · exact .inr (.inr ⟨by omega, by simp [h]⟩)

/-- A write is performed, or issued and outstanding, or answered with an error, or there is no such
access (20_memory.md R44, R45, 10_state.md R27). -/
theorem memWrite_cases (a : Nat) (w : Word) (s : State) :
    (a % 4 = 0 ∧ a + 4 ≤ 2 ^ s.params.aw ∧ answer s = .ok ∧
      memWrite a w s = .ok () { answered s with mem := s.mem.writeWord s.params.endian a w }) ∨
    (a % 4 = 0 ∧ a + 4 ≤ 2 ^ s.params.aw ∧ answer s = .later ∧
      memWrite a w s =
        .ok () { answered s with outstanding := s.outstanding ++ [{ addr := a, word := w }] }) ∨
    (a % 4 = 0 ∧ a + 4 ≤ 2 ^ s.params.aw ∧ answer s = .error ∧
      memWrite a w s = .error (answered s)) ∨
    (a % 4 = 0 ∧ 2 ^ s.params.aw < a + 4 ∧ memWrite a w s = .fault .noSuchAddress) ∨
    (a % 4 ≠ 0 ∧ memWrite a w s = .fault .misalignedWrite) := by
  unfold memWrite
  by_cases h4 : a % 4 = 0
  · by_cases h : 2 ^ s.params.aw < a + 4
    · exact .inr (.inr (.inr (.inl ⟨h4, h, by simp [h4, h]⟩)))
    · have h' : a + 4 ≤ 2 ^ s.params.aw := by omega
      cases ha : answer s
      · exact .inl ⟨h4, h', rfl, by simp [h4, h]⟩
      · exact .inr (.inr (.inl ⟨h4, h', rfl, by simp [h4, h]⟩))
      · exact .inr (.inl ⟨h4, h', rfl, by simp [h4, h]⟩)
  · exact .inr (.inr (.inr (.inr ⟨h4, by simp [h4]⟩)))

/-- What follows an access goes on only from its success; an error gives the bridge failure. -/
theorem Reply.andThen_next {α : Type} {r : Reply α} {k : α → State → StepOutcome} {t : State}
    (h : r.andThen k = .next t) :
    (∃ v u, r = .ok v u ∧ k v u = .next t) ∨ (∃ u, r = .error u ∧ t = raiseBridge u) := by
  cases r with
  | ok v u => exact .inl ⟨v, u, rfl, h⟩
  | error u => exact .inr ⟨u, rfl, by simpa [Reply.andThen, eq_comm] using h⟩
  | fault f => simp [Reply.andThen] at h

@[simp] theorem Reply.andThen_ok {α : Type} (v : α) (s : State) (k : α → State → StepOutcome) :
    (Reply.ok v s).andThen k = k v s := rfl

@[simp] theorem Reply.andThen_error {α : Type} (s : State) (k : α → State → StepOutcome) :
    (Reply.error s : Reply α).andThen k = .next (raiseBridge s) := rfl

@[simp] theorem Reply.andThen_fault {α : Type} (f : Fault) (k : α → State → StepOutcome) :
    (Reply.fault f : Reply α).andThen k = .fault f := rfl

/-- `n` answers given. -/
def answeredTimes (s : State) (n : Nat) : State := { s with answers := s.answers.drop n }

/-- The wait of `FINISH` never faults: every awaited write is performed, in order, or one of them is
answered with an error (41_converter_command.md R89). -/
theorem awaitWrites_cases (ps : List Posted) (s : State) :
    awaitWrites ps s = .ok () { answeredTimes s ps.length with
        mem := ps.foldl (fun m p => m.writeWord s.params.endian p.addr p.word) s.mem, outstanding := [] } ∨
    (∃ n m, n ≤ ps.length ∧ awaitWrites ps s = .error { answeredTimes s n with mem := m }) := by
  induction ps generalizing s with
  | nil => exact .inl (by simp [awaitWrites, answeredTimes])
  | cons p ps ih =>
    by_cases he : answer s = .error
    · refine .inr ⟨1, s.mem, by simp, ?_⟩
      simp [awaitWrites, he, answered, answeredTimes]
    · rcases ih { answered s with mem := s.mem.writeWord s.params.endian p.addr p.word } with h | ⟨n, m, hn, h⟩
      · refine .inl ?_
        rw [awaitWrites, if_neg he, h]
        simp [answered, answeredTimes]
      · refine .inr ⟨n + 1, m, by simpa using hn, ?_⟩
        rw [awaitWrites, if_neg he, h]
        simp [answered, answeredTimes]

@[simp] theorem awaitWrites_nil (s : State) : awaitWrites [] s = .ok () { s with outstanding := [] } := rfl

/-- `FINISH` either completes the call with every outstanding write performed, or ends it as a bridge
failure (41_converter_command.md R89). -/
theorem finishCall_cases (s : State) :
    finishCall s = .next { answeredTimes s s.outstanding.length with
        mem := s.outstanding.foldl (fun m p => m.writeWord s.params.endian p.addr p.word) s.mem,
        outstanding := [], status := statusDone } ∨
    (∃ n m, n ≤ s.outstanding.length ∧
      finishCall s = .next (raiseBridge { answeredTimes s n with mem := m })) := by
  rcases awaitWrites_cases s.outstanding s with h | ⟨n, m, hn, h⟩
  · exact .inl (by simp [finishCall, h])
  · exact .inr ⟨n, m, hn, by simp [finishCall, h]⟩

/-! ### The views after a bridge failure -/

/-- Outside the output words a bridge failure leaves memory as it was (60_exceptions.md R140). -/
theorem raiseBridge_read_outside (s : State) (a : Nat)
    (h : a < s.regs.rgbBase.toNat ∨ s.regs.rgbBase.toNat + 4 * frameSize s ≤ a) :
    (raiseBridge s).mem.read a = s.mem.read a := by
  rw [raiseBridge_mem, Memory.read_unspecify, if_neg (by omega)]

/-! ### The parts of a call -/

/-- `CHECK` answers 0 or one of the four codes (41_converter_command.md R87). -/
theorem checkCode_cases (s : State) :
    checkCode s = 0#3 ∨ checkCode s = 1#3 ∨ checkCode s = 2#3 ∨ checkCode s = 3#3 ∨ checkCode s = 4#3 := by
  unfold checkCode
  split
  · exact .inr (.inl rfl)
  · split
    · exact .inr (.inr (.inl rfl))
    · split
      · exact .inr (.inr (.inr (.inl rfl)))
      · split
        · exact .inr (.inr (.inr (.inr rfl)))
        · exact .inl rfl

/-- `CONVERT` is ignored, or refused by `CHECK`, or starts the call, or is no launch
(41_converter_command.md R85, R92, 20_memory.md R50). -/
theorem execConvert_cases (s : State) :
    (s.status.busy = true ∧ execConvert s = .next s) ∨
    (s.status.busy = false ∧ checkCode s ≠ 0#3 ∧ execConvert s = .next (raiseError (checkCode s) s)) ∨
    (s.status.busy = false ∧ checkCode s = 0#3 ∧ viewsDisjoint s = true ∧
      execConvert s = .next (rowStart (initFrame { s with status := statusBusy }))) ∨
    (s.status.busy = false ∧ checkCode s = 0#3 ∧ viewsDisjoint s = false ∧
      execConvert s = .refused .overlappingViews) := by
  unfold execConvert
  cases hb : s.status.busy
  · by_cases hc : checkCode s = 0#3
    · cases hd : viewsDisjoint s
      · exact .inr (.inr (.inr ⟨rfl, hc, rfl, by simp [hc]⟩))
      · exact .inr (.inr (.inl ⟨rfl, hc, rfl, by simp [hc]⟩))
    · exact .inr (.inl ⟨rfl, hc, by simp [hc]⟩)
  · exact .inl ⟨rfl, by simp⟩

/-- `ADV` goes to the next pixel, to the next row, or to `FINISH` (42_traversal_and_fetch.md R105). -/
theorem execAdv_cases (s : State) :
    (beforeRowEnd s = true ∧
      execAdv s = .next { s with pos := { s.pos with yp := s.pos.yp + 1#64, x := s.pos.x + 1#32 } }) ∨
    (beforeRowEnd s = false ∧ (s.pos.i + 1#32).toNat < s.regs.height.toNat ∧
      execAdv s = .next (rowStart
        { s with pos := { s.pos with yp := s.pos.yp + 1#64, i := s.pos.i + 1#32 } })) ∨
    (beforeRowEnd s = false ∧ s.regs.height.toNat ≤ (s.pos.i + 1#32).toNat ∧
      execAdv s = finishCall
        { s with pos := { s.pos with yp := s.pos.yp + 1#64, i := s.pos.i + 1#32 } }) := by
  unfold execAdv
  cases hr : beforeRowEnd s
  · by_cases hi : (s.pos.i + 1#32).toNat < s.regs.height.toNat
    · refine .inr (.inl ⟨rfl, hi, ?_⟩)
      simp only [Bool.false_eq_true, if_false]
      exact if_pos hi
    · refine .inr (.inr ⟨rfl, by omega, ?_⟩)
      simp only [Bool.false_eq_true, if_false]
      exact if_neg hi
  · exact .inl ⟨rfl, by simp⟩

/-! ### Running in order -/

@[simp] theorem runSequence_nil (s : State) : runSequence [] s = .next s := rfl

/-- A sequence goes on from a micro-operation that leaves the call running (R108). -/
theorem runSequence_cons_busy {i : Instr} {is : List Instr} {s t : State} (h : exec i s = .next t)
    (hb : t.status.busy = true) : runSequence (i :: is) s = runSequence is t := by
  simp [runSequence, h, hb]

/-- A sequence ends at a micro-operation that ends the call (R108). -/
theorem runSequence_cons_idle {i : Instr} {is : List Instr} {s t : State} (h : exec i s = .next t)
    (hb : t.status.busy = false) : runSequence (i :: is) s = .next t := by
  simp [runSequence, h, hb]

/-- What a sequence of micro-operations can come to: every property kept by each of them is kept by
the sequence. The one induction over sequences. -/
theorem runSequence_keeps (P : State → Prop) :
    ∀ (is : List Instr), (∀ i ∈ is, ∀ s t, P s → exec i s = .next t → P t) →
      ∀ s t, P s → runSequence is s = .next t → P t
  | [], _, s, t, hs, h => by
    obtain rfl : s = t := by simpa [runSequence] using h
    exact hs
  | i :: is, hk, s, t, hs, h => by
    cases he : exec i s with
    | next u =>
      have hu : P u := hk i (by simp) s u hs he
      by_cases hb : u.status.busy = true
      · rw [runSequence_cons_busy he hb] at h
        exact runSequence_keeps P is (fun j hj => hk j (by simp [hj])) u t hu h
      · rw [runSequence_cons_idle he (by simpa using hb)] at h
        obtain rfl : u = t := by simpa using h
        exact hu
    | fault f => simp [runSequence, he] at h
    | refused r => simp [runSequence, he] at h

/-- What one step of the machine can be: the micro-operation on the bench; else, with no input left,
the sequencer's turn; else the first input (00_scope.md R5; log 3). -/
theorem step_cases (s : State) :
    (∃ c, s.bench = some c ∧ step s = exec (decodeUop c) { s with bench := none }) ∨
    (s.bench = none ∧ s.inputs = [] ∧ step s = sequencerTurn s) ∨
    (s.bench = none ∧ ∃ e es, s.inputs = e :: es ∧ step s = takeInput e { s with inputs := es }) := by
  cases hb : s.bench with
  | some c => exact .inl ⟨c, rfl, by simp [step, benchOrMove, runBench, hb]⟩
  | none =>
    cases h : s.inputs with
    | nil => exact .inr (.inl ⟨rfl, rfl, by simp [step, benchOrMove, nextMove, hb, h]⟩)
    | cons e es => exact .inr (.inr ⟨rfl, e, es, rfl, by simp [step, benchOrMove, nextMove, hb, h]⟩)

/-- A transaction is a host operation, never a micro-operation (30_encoding.md R62, R69). -/
theorem decodeTransaction_isHost (t : Transaction) : (decodeTransaction t).isHost = true := by
  unfold decodeTransaction
  split <;> first | rfl | (unfold decodeCtrl; split <;> rfl)

end Sys2Proof.Machine
end

