-- ==== Sys2Proof/Laws/PerInstr.lean ====
section
/-! SUPPORT. One lemma per operation about its encoding as syntax: the container it is laid out in. -/

namespace Sys2Proof.Laws

/-- An operation's encoding is a container of the length its format has, nine bytes for a host
transaction and one for a micro-operation code, with zero padding (log 2). -/
def EncodingShape.Statement (i : Sys2Proof.Instr) : Prop :=
  wellFormedBytes (encode i) = true ∧ (encode i).length = if i.isHost then 9 else 1

/-- The padding nibble above a four-bit field is zero. -/
theorem setWidth_padding (c : BitVec 4) : (c.setWidth 8).extractLsb' 4 4 = 0#4 := by
  revert c; decide

theorem transactionBytes_shape (t : Transaction) :
    wellFormedBytes (transactionBytes t) = true ∧ (transactionBytes t).length = 9 := by
  simp only [transactionBytes, wellFormedBytes, setWidth_padding, List.length_cons, List.length_nil]
  exact ⟨rfl, trivial⟩

theorem uopBytes_shape (c : UopCode) : wellFormedBytes (uopBytes c) = true ∧ (uopBytes c).length = 1 := by
  simp only [uopBytes, wellFormedBytes, setWidth_padding, List.length_cons, List.length_nil]
  exact ⟨rfl, trivial⟩

theorem EncodingShape.rdregWidth (d : DWord) : EncodingShape.Statement (.rdregWidth d) := transactionBytes_shape _
theorem EncodingShape.rdregHeight (d : DWord) : EncodingShape.Statement (.rdregHeight d) := transactionBytes_shape _
theorem EncodingShape.rdregYuvBase (d : DWord) : EncodingShape.Statement (.rdregYuvBase d) := transactionBytes_shape _
theorem EncodingShape.rdregYuvLen (d : DWord) : EncodingShape.Statement (.rdregYuvLen d) := transactionBytes_shape _
theorem EncodingShape.rdregRgbBase (d : DWord) : EncodingShape.Statement (.rdregRgbBase d) := transactionBytes_shape _
theorem EncodingShape.rdregRgbCap (d : DWord) : EncodingShape.Statement (.rdregRgbCap d) := transactionBytes_shape _
theorem EncodingShape.rdregCtrl (d : DWord) : EncodingShape.Statement (.rdregCtrl d) := transactionBytes_shape _
theorem EncodingShape.rdregStatus (d : DWord) : EncodingShape.Statement (.rdregStatus d) := transactionBytes_shape _
theorem EncodingShape.wrregWidth (d : DWord) : EncodingShape.Statement (.wrregWidth d) := transactionBytes_shape _
theorem EncodingShape.wrregHeight (d : DWord) : EncodingShape.Statement (.wrregHeight d) := transactionBytes_shape _
theorem EncodingShape.wrregYuvBase (d : DWord) : EncodingShape.Statement (.wrregYuvBase d) := transactionBytes_shape _
theorem EncodingShape.wrregYuvLen (d : DWord) : EncodingShape.Statement (.wrregYuvLen d) := transactionBytes_shape _
theorem EncodingShape.wrregRgbBase (d : DWord) : EncodingShape.Statement (.wrregRgbBase d) := transactionBytes_shape _
theorem EncodingShape.wrregRgbCap (d : DWord) : EncodingShape.Statement (.wrregRgbCap d) := transactionBytes_shape _
theorem EncodingShape.convert (r : BitVec 63) : EncodingShape.Statement (.convert r) := transactionBytes_shape _
theorem EncodingShape.nopcmd (r : BitVec 63) : EncodingShape.Statement (.nopcmd r) := transactionBytes_shape _
theorem EncodingShape.wrstatus (d : DWord) : EncodingShape.Statement (.wrstatus d) := transactionBytes_shape _
theorem EncodingShape.check : EncodingShape.Statement .check := uopBytes_shape _
theorem EncodingShape.init : EncodingShape.Statement .init := uopBytes_shape _
theorem EncodingShape.rowstart : EncodingShape.Statement .rowstart := uopBytes_shape _
theorem EncodingShape.ldy : EncodingShape.Statement .ldy := uopBytes_shape _
theorem EncodingShape.ldvu : EncodingShape.Statement .ldvu := uopBytes_shape _
theorem EncodingShape.ped : EncodingShape.Statement .ped := uopBytes_shape _
theorem EncodingShape.bias : EncodingShape.Statement .bias := uopBytes_shape _
theorem EncodingShape.matr : EncodingShape.Statement .matr := uopBytes_shape _
theorem EncodingShape.matg : EncodingShape.Statement .matg := uopBytes_shape _
theorem EncodingShape.matb : EncodingShape.Statement .matb := uopBytes_shape _
theorem EncodingShape.descale : EncodingShape.Statement .descale := uopBytes_shape _
theorem EncodingShape.clamp : EncodingShape.Statement .clamp := uopBytes_shape _
theorem EncodingShape.pack : EncodingShape.Statement .pack := uopBytes_shape _
theorem EncodingShape.stw : EncodingShape.Statement .stw := uopBytes_shape _
theorem EncodingShape.adv : EncodingShape.Statement .adv := uopBytes_shape _
theorem EncodingShape.finish : EncodingShape.Statement .finish := uopBytes_shape _

end Sys2Proof.Laws
end

