-- ==== Sys2Proof/Tests/Slice0.lean ====
section
/-! SUPPORT. Tests: words written out from the spec's encodings, the WellFormed smoke, one or two
single steps per operation with values from spec/95_test_vectors.md, and for every statement with
hypotheses a concrete state that meets them. -/

namespace Sys2Proof.Tests

open Sys2Proof.Machine

/-! ### Helpers -/

/-- Whether an outcome is a next state with a property. -/
def nextHas (o : Host.Outcome State Fault Refusal) (p : State → Bool) : Bool :=
  match o with
  | .next t => p t
  | .fault _ | .refused _ => false

/-- Whether an outcome is one refusal. -/
def refusedAs (o : Host.Outcome State Fault Refusal) (r : Refusal) : Bool :=
  match o with
  | .refused q => q == r
  | .next _ | .fault _ => false

/-- Whether an outcome is one fault. -/
def faultedAs (o : Host.Outcome State Fault Refusal) (f : Fault) : Bool :=
  match o with
  | .fault g => g == f
  | .next _ | .refused _ => false

/-- The registers of row K23 of 95_test_vectors.md 2.11: the smallest legal frame. -/
def k23 : OperandRegs :=
  { width := 2#32, height := 2#32, yuvBase := 0x1000#64, yuvLen := 6#64, rgbBase := 0x2000#64, rgbCap := 4#64 }

/-- The frame of 95_test_vectors.md scenario 4 at `0x1000`. -/
def redFrame : Memory :=
  [(0x1000, 81#8), (0x1001, 81#8), (0x1002, 81#8), (0x1003, 81#8), (0x1004, 240#8), (0x1005, 90#8)]

/-- Idle, with the operands of K23 and the red frame in memory. -/
def launch : State := { State.reset with regs := k23, mem := redFrame }

/-- The call just started: `pc = (0, 0, 0, 4)` (41_converter_command.md R85, worked example). -/
def running : State :=
  { launch with status := statusBusy, pos := { i := 0#32, x := 0#32, yp := 0#64, uvp := 4#64, fs := 4#64 } }

/-- The same call at its second pixel, with the latch loaded and the first word stored. -/
def runningOdd : State :=
  { launch with
    status := statusBusy
    pos := { i := 0#32, x := 1#32, yp := 1#64, uvp := 6#64, fs := 4#64 }
    acc := { resetAccumulator with v := 240#8, u := 90#8 }
    mem := redFrame.writeWord .little 0x2000 0xFFFF0100#32 }

/-- The same call at its last pixel, `pc = (1, 1, 3, 6)`, two words stored and one under way. -/
def runningLast : State :=
  { launch with
    status := statusBusy
    pos := { i := 1#32, x := 1#32, yp := 3#64, uvp := 6#64, fs := 4#64 }
    acc := { resetAccumulator with v := 240#8, u := 90#8 }
    mem := (redFrame.writeWord .little 0x2000 0xFFFF0100#32).writeWord .little 0x2004 0xFFFF0100#32
    outstanding := [{ addr := 0x2008, word := 0xFFFF0100#32 }] }

/-! ### WellFormed -/

theorem test_wellFormed_refuses_read_data : (Instr.rdregWidth 1#64).wellFormed = false := by decide
theorem test_wellFormed_refuses_convert_reserved : (Instr.convert 1#63).wellFormed = false := by decide
theorem test_wellFormed_refuses_nopcmd_reserved : (Instr.nopcmd 1#63).wellFormed = false := by decide
theorem test_wellFormed_refuses_wrstatus_data : (Instr.wrstatus 0x54#64).wellFormed = false := by decide
theorem test_wellFormed_accepts_write : (Instr.wrregWidth 2#64).wellFormed = true := by decide
theorem test_bytes_refuses_length :
    wellFormedBytes [0#8, 0#8] = false ∧ decode [0#8, 0#8] = .error .badLength := by decide
theorem test_bytes_refuses_uop_padding :
    wellFormedBytes [0x10#8] = false ∧ decode [0x10#8] = .error .uopPadding := by decide
theorem test_bytes_refuses_transaction_padding :
    wellFormedBytes [0#8, 0#8, 0#8, 0#8, 0#8, 0#8, 0#8, 0#8, 0x10#8] = false ∧
    decode [0#8, 0#8, 0#8, 0#8, 0#8, 0#8, 0#8, 0#8, 0x10#8] = .error .transactionPadding := by decide

/-! ### Decoding: words from 30_encoding.md R60 to R62, R69 -/

theorem test_decode_rdreg :
    decodeTableWord 72 0x00000000000000000 = some (.rdregWidth 0#64) ∧
    decodeTableWord 72 0x10000000000000000 = some (.rdregHeight 0#64) ∧
    decodeTableWord 72 0x20000000000000000 = some (.rdregYuvBase 0#64) ∧
    decodeTableWord 72 0x30000000000000000 = some (.rdregYuvLen 0#64) ∧
    decodeTableWord 72 0x40000000000000000 = some (.rdregRgbBase 0#64) ∧
    decodeTableWord 72 0x50000000000000000 = some (.rdregRgbCap 0#64) ∧
    decodeTableWord 72 0x60000000000000000 = some (.rdregCtrl 0#64) ∧
    decodeTableWord 72 0x7FFFFFFFFFFFFFFFF = some (.rdregStatus 0xFFFFFFFFFFFFFFFF#64) := by decide
theorem test_decode_wrreg :
    decodeTableWord 72 0x80000000000000002 = some (.wrregWidth 2#64) ∧
    decodeTableWord 72 0x900000000FFFFFFFE = some (.wrregHeight 0xFFFFFFFE#64) ∧
    decodeTableWord 72 0xA0000000000001000 = some (.wrregYuvBase 0x1000#64) ∧
    decodeTableWord 72 0xB0000000000000006 = some (.wrregYuvLen 6#64) ∧
    decodeTableWord 72 0xC0000000000002000 = some (.wrregRgbBase 0x2000#64) ∧
    decodeTableWord 72 0xD0000000000000004 = some (.wrregRgbCap 4#64) := by decide
theorem test_decode_ctrl_status :
    decodeTableWord 72 0xE0000000000000001 = some (.convert 0#63) ∧
    decodeTableWord 72 0xE0000000000000003 = some (.convert 1#63) ∧
    decodeTableWord 72 0xE0000000000000000 = some (.nopcmd 0#63) ∧
    decodeTableWord 72 0xEFFFFFFFFFFFFFFFE = some (.nopcmd 0x7FFFFFFFFFFFFFFF#63) ∧
    decodeTableWord 72 0xF0000000000000054 = some (.wrstatus 0x54#64) := by decide
theorem test_decode_uop_control :
    decodeTableWord 8 0x0 = some .check ∧ decodeTableWord 8 0x1 = some .init ∧
    decodeTableWord 8 0x2 = some .rowstart ∧ decodeTableWord 8 0xE = some .adv ∧
    decodeTableWord 8 0xF = some .finish := by decide
theorem test_decode_uop_memory :
    decodeTableWord 8 0x3 = some .ldy ∧ decodeTableWord 8 0x4 = some .ldvu ∧
    decodeTableWord 8 0xD = some .stw := by decide
theorem test_decode_uop_datapath :
    decodeTableWord 8 0x5 = some .ped ∧ decodeTableWord 8 0x6 = some .bias ∧
    decodeTableWord 8 0x7 = some .matr ∧ decodeTableWord 8 0x8 = some .matg ∧
    decodeTableWord 8 0x9 = some .matb ∧ decodeTableWord 8 0xA = some .descale ∧
    decodeTableWord 8 0xB = some .clamp ∧ decodeTableWord 8 0xC = some .pack := by decide
theorem test_encode_convert :
    encode (.convert 0#63) = [1#8, 0#8, 0#8, 0#8, 0#8, 0#8, 0#8, 0#8, 0xE#8] := by decide

/-! ### Single steps: the register port (95_test_vectors.md 2.12) -/

theorem test_step_runs_fetched_word :
    nextHas (step (launch.withFetchWord 72 0x00000000000000000)) (fun t => t.ret == 2#64) = true := by decide
theorem test_write_ignores_high_bits :
    nextHas (exec (.wrregWidth 0x100000004#64) launch) (fun t => t.regs.width == 4#32) = true := by decide
theorem test_write_locked_while_busy :
    nextHas (exec (.wrregWidth 4#64) running) (fun t => t.regs.width == 2#32) = true := by decide
theorem test_write_base_keeps_aw_bits :
    nextHas (exec (.wrregYuvBase 0x100001000#64)
      { launch with params := { Config.defaults with aw := 32 } }) (fun t => t.regs.yuvBase == 0x1000#64)
      = true := by decide
theorem test_read_status_busy :
    nextHas (exec (.rdregStatus 0xFFFFFFFFFFFFFFFF#64) running) (fun t => t.ret == 1#64) = true := by decide
theorem test_read_ctrl_zero :
    nextHas (exec (.rdregCtrl 0#64) { running with ret := 7#64 }) (fun t => t.ret == 0#64) = true := by decide
theorem test_status_write_ignored :
    nextHas (exec (.wrstatus 0x54#64) launch) (fun t => statusWord t.status == 0#64) = true := by decide

/-! ### Single steps: CHECK and CONVERT (95_test_vectors.md 2.11) -/

/-- `CHECK`'s code with the operands of K23 changed by a function. -/
def codeWith (f : OperandRegs → OperandRegs) : BitVec 3 := checkCode { launch with regs := f k23 }

theorem test_check_priority :
    codeWith (fun r => { r with yuvBase := 0#64, width := 3#32 }) = 1#3 ∧
    codeWith (fun r => { r with width := 3#32, yuvLen := 5#64, rgbBase := 0x2002#64 }) = 2#3 ∧
    codeWith (fun r => { r with yuvLen := 5#64, rgbBase := 0x2002#64 }) = 3#3 ∧
    codeWith (fun r => { r with rgbBase := 0x2002#64 }) = 4#3 ∧ codeWith id = 0#3 := by decide
theorem test_check_address_edge :
    codeWith (fun r => { r with yuvBase := 0xFFFFFFFFFFFFFFFC#64 }) = 4#3 ∧
    codeWith (fun r => { r with yuvBase := 0xFFFFFFFFFFFFFFFA#64 }) = 0#3 ∧
    codeWith (fun r => { r with rgbBase := 0xFFFFFFFFFFFFFFF8#64 }) = 4#3 ∧
    codeWith (fun r => { r with rgbBase := 0xFFFFFFFFFFFFFFF0#64 }) = 0#3 := by decide
theorem test_check_length_does_not_wrap :
    codeWith (fun r => { r with
      width := 0xFFFFFFFE#32, height := 0xFFFFFFFE#32
      yuvLen := 0xFFFFFFFFFFFFFFFF#64, rgbCap := 0xFFFFFFFC00000004#64 }) = 3#3 := by decide
theorem test_convert_starts :
    nextHas (exec (.convert 0#63) launch) (fun t => t == running) = true := by decide
theorem test_convert_refused_by_check :
    nextHas (exec (.convert 0#63) { launch with regs := { k23 with width := 3#32 } })
      (fun t => statusWord t.status == 0x24#64) = true := by decide

/-! ### Single steps: the sequencer (95_test_vectors.md 2.8, 2.10, P1) -/

theorem test_rowstart_second_row_pair :
    nextHas (exec .rowstart { launch with
      regs := { k23 with width := 4#32, height := 4#32 }
      pos := { i := 3#32, x := 3#32, yp := 12#64, uvp := 24#64, fs := 16#64 } })
      (fun t => t.pos.uvp == 20#64 && t.pos.x == 0#32) = true := by decide
theorem test_ldy : nextHas (exec .ldy running) (fun t => t.acc.y == 81#8) = true := by decide
theorem test_ldvu_v_first :
    nextHas (exec .ldvu running) (fun t => t.acc.v == 240#8 && t.acc.u == 90#8 && t.pos.uvp == 6#64) = true := by
  decide
theorem test_ldvu_odd_skipped : nextHas (exec .ldvu runningOdd) (fun t => t == runningOdd) = true := by decide
theorem test_adv_row_end :
    nextHas (exec .adv runningOdd) (fun t => t.pos == ⟨1#32, 0#32, 2#64, 4#64, 4#64⟩) = true := by decide
theorem test_adv_frame_end :
    nextHas (exec .adv { runningLast with outstanding := [] })
      (fun t => t.pos == ⟨2#32, 1#32, 4#64, 6#64, 4#64⟩ && statusWord t.status == 2#64) = true := by decide
theorem test_pixel_step_first :
    nextHas (step running) (fun t => t.pos == ⟨0#32, 1#32, 1#64, 6#64, 4#64⟩ && t.mem == runningOdd.mem) = true := by
  decide
theorem test_finish_performs_outstanding :
    nextHas (exec .finish runningLast)
      (fun t => t.outstanding == [] && t.mem.read 0x200A == 0xFF#8 && t.mem.read 0x2009 == 1#8) = true := by decide

/-! ### Single steps: the datapath (95_test_vectors.md 2.1 to 2.7) -/

/-- The reset state with accumulators set by a function. -/
def withAcc (f : Accumulator → Accumulator) : State := { State.reset with acc := f resetAccumulator }

theorem test_ped_floor :
    nextHas (exec .ped (withAcc fun a => { a with y := 15#8 })) (fun t => t.acc.yq == 0#32) = true ∧
    nextHas (exec .ped (withAcc fun a => { a with y := 255#8 })) (fun t => t.acc.yq == 239#32) = true := by decide
theorem test_bias :
    nextHas (exec .bias (withAcc fun a => { a with v := 240#8, u := 90#8 }))
      (fun t => t.acc.vq.toInt == 112 && t.acc.uq.toInt == -38) = true := by decide
/-- The matrix inputs of scenario 4. -/
def redAcc : State := withAcc fun a => { a with yq := 65#32, vq := 112#32, uq := BitVec.ofInt 32 (-38) }
theorem test_matr : nextHas (exec .matr redAcc) (fun t => t.acc.rpre.toInt == 260488) = true := by decide
theorem test_matg : nextHas (exec .matg redAcc) (fun t => t.acc.gpre.toInt == -616) = true := by decide
theorem test_matb : nextHas (exec .matb redAcc) (fun t => t.acc.bpre.toInt == -1028) = true := by decide
theorem test_descale_floor :
    nextHas (exec .descale (withAcc fun a => { a with
      rpre := BitVec.ofInt 32 (-1025), gpre := BitVec.ofInt 32 (-1), bpre := 131120#32 }))
      (fun t => t.acc.rs.toInt == 0 && t.acc.gs.toInt == 1 && t.acc.bs.toInt == 130) = true := by decide
theorem test_clamp_saturates :
    nextHas (exec .clamp (withAcc fun a => { a with rs := 256#32, gs := BitVec.ofInt 32 (-1), bs := 128#32 }))
      (fun t => t.acc.r8 == 255#8 && t.acc.g8 == 0#8 && t.acc.b8 == 128#8) = true := by decide
theorem test_pack :
    nextHas (exec .pack (withAcc fun a => { a with r8 := 0x12#8, g8 := 0x34#8, b8 := 0x56#8 }))
      (fun t => t.acc.word == 0xFF123456#32) = true := by decide
theorem test_stw_little :
    nextHas (exec .stw { runningLast with acc := { resetAccumulator with word := 0xFF123456#32 } })
      (fun t => t.mem.read 0x200C == 0x56#8 && t.mem.read 0x200F == 0xFF#8) = true := by decide
theorem test_stw_big :
    nextHas (exec .stw { runningLast with
      acc := { resetAccumulator with word := 0xFF123456#32 }, params := { Config.defaults with endian := .big } })
      (fun t => t.mem.read 0x200C == 0xFF#8 && t.mem.read 0x200F == 0x56#8) = true := by decide
theorem test_pixelWord_anchors :
    pixelWord 16#8 128#8 128#8 = 0xFF020202#32 ∧ pixelWord 235#8 128#8 128#8 = 0xFFFFFFFF#32 ∧
    pixelWord 81#8 90#8 240#8 = 0xFFFF0100#32 ∧ pixelWord 0#8 255#8 255#8 = 0xFFCC00FF#32 := by decide

/-! ### Single steps: errors, reset, the model's stops (95_test_vectors.md 2.13, 2.14) -/

/-- A call whose next access the memory answers with an error. -/
def failing : State := { running with answers := [.error] }
/-- A call whose second access the memory answers with an error. -/
def failingSecond : State := { running with answers := [.ok, .error] }
/-- The same memory where `MEM_CAN_FAIL` is false. -/
def cannotFail : State := { failing with params := { Config.defaults with memCanFail := false } }

theorem test_bridge_failure :
    nextHas (step failing) (fun t => statusWord t.status == 0x54#64 && t.regs == k23) = true := by decide
theorem test_no_bridge_failure_without_parameter :
    nextHas (step cannotFail) (fun t => statusWord t.status == 1#64) = true := by decide
theorem test_reset_during_call :
    nextHas (step { running with inputs := [.reset] })
      (fun t => t.regs == resetRegs && statusWord t.status == 0#64) = true := by decide
theorem test_overlap_refused :
    refusedAs (exec (.convert 0#63) { launch with regs := { k23 with rgbBase := 0x1004#64 } })
      .overlappingViews = true := by decide
theorem test_host_store_during_call_refused :
    refusedAs (step { running with inputs := [.hostStore 0x1005 0#8] }) .hostBreaksCall = true := by decide
theorem test_fetched_uop_runs_once :
    nextHas (step (running.withFetchWord 8 0x3)) (fun t => t.acc.y == 81#8 && t.bench == none) = true := by decide
theorem test_read_beyond_address_space :
    faultedAs (exec .ldy { running with params := { Config.defaults with aw := 12 } }) .noSuchAddress = true := by
  decide
theorem test_misaligned_store :
    faultedAs (exec .stw { running with regs := { k23 with rgbBase := 0x2002#64 } }) .misalignedWrite = true := by
  decide

/-! ### Witnesses: concrete states that meet the hypotheses of each statement, clause by clause -/

/-- Whether a step has a next state. -/
def hasNext (o : Host.Outcome State Fault Refusal) : Bool := nextHas o (fun _ => true)

theorem witness_TransactionRowsSelectTheHostOperation :
    (decode (transactionBytes 0x7FFFFFFFFFFFFFFFF#68) = .ok (.rdregStatus 0xFFFFFFFFFFFFFFFF#64) ∧
      0x7FFFFFFFFFFFFFFFF#68 &&& 0x80000000000000000#68 = 0x00000000000000000#68) ∧
    (decode (transactionBytes 0xB0000000000000000#68) = .ok (.wrregYuvLen 0#64) ∧
      0xB0000000000000000#68 &&& 0xC0000000000000000#68 = 0x80000000000000000#68) ∧
    (decode (transactionBytes 0xD0000000000000000#68) = .ok (.wrregRgbCap 0#64) ∧
      0xD0000000000000000#68 &&& 0xE0000000000000000#68 = 0xC0000000000000000#68) ∧
    (decode (transactionBytes 0xE0000000000000001#68) = .ok (.convert 0#63) ∧
      0xE0000000000000001#68 &&& 0xF0000000000000001#68 = 0xE0000000000000001#68) ∧
    (decode (transactionBytes 0xE0000000000000002#68) = .ok (.nopcmd 1#63) ∧
      0xE0000000000000002#68 &&& 0xF0000000000000001#68 = 0xE0000000000000000#68) ∧
    (decode (transactionBytes 0xF0000000000000000#68) = .ok (.wrstatus 0#64) ∧
      0xF0000000000000000#68 &&& 0xF0000000000000000#68 = 0xF0000000000000000#68) := by decide
theorem witness_StepRunsTheDecodedOperation :
    (running.bench = none ∧
      (running.withFetchWord 72 0xE0000000000000001).inputs = .transaction 0xE0000000000000001#68 :: [] ∧
      decode (transactionBytes 0xE0000000000000001#68) = .ok (.convert 0#63)) ∧
    (launch.withFetchWord 8 0x5).bench = some 0x5#4 ∧ decode (uopBytes 0x5#4) = .ok .ped := by decide
theorem witness_SequencerStepsExactlyWhileBusy :
    running.bench = none ∧ launch.bench = none ∧
    (running.inputs = [] ∧ running.status.busy = true) ∧ (launch.inputs = [] ∧ launch.status.busy = false) ∧
    (({ running with inputs := [.turn] } : State).inputs = .turn :: [] ∧ running.status.busy = true) ∧
    (({ launch with inputs := [.turn] } : State).inputs = .turn :: [] ∧ launch.status.busy = false) := by decide
theorem witness_StepConsumesOneInput :
    (running.bench = none ∧ hasNext (step { running with inputs := [.turn, .memAnswer] }) = true) ∧
    ((running.withFetchWord 8 0x5).bench ≠ none ∧ hasNext (step (running.withFetchWord 8 0x5)) = true) := by
  decide
theorem witness_ReadReturnsTheRegisterAndChangesNothing :
    basesBounded { launch with params := { Config.defaults with aw := 14 } } ∧ 14 ≤ 14 := by decide
theorem witness_OperandWriteStoresTheLowBits : launch.status.busy = false := by decide
theorem witness_WritesWithoutEffect : running.status.busy = true := by decide

/-- The launch state with other operands. -/
def operands (f : OperandRegs → OperandRegs) : State := { launch with regs := f k23 }
/-- K2: a null input base. -/
def nullState : State := operands fun r => { r with yuvBase := 0#64 }
/-- K8: zero height. -/
def dimensionState : State := operands fun r => { r with height := 0#32 }
/-- K10: the input one byte short. -/
def lengthState : State := operands fun r => { r with yuvLen := 5#64 }
/-- K19: the output view past the top of the address space. -/
def addressState : State := operands fun r => { r with rgbBase := 0xFFFFFFFFFFFFFFF8#64 }
/-- K28: overlapping views. -/
def overlapState : State := operands fun r => { r with rgbBase := 0x1004#64 }

theorem witness_CheckReturnsTheFirstFailingTest :
    nullBase nullState ∧ (¬ nullBase dimensionState ∧ badDimension dimensionState) ∧
    (¬ nullBase lengthState ∧ ¬ badDimension lengthState ∧ badLength lengthState) ∧
    (¬ nullBase addressState ∧ ¬ badDimension addressState ∧ ¬ badLength addressState ∧
      badAddress addressState) ∧
    validOperands launch := by decide
theorem witness_ConvertStartsTheCall :
    launch.status.busy = false ∧ validOperands launch ∧ viewsDisjoint launch = true := by decide
theorem witness_RefusedConvertChangesOnlyStatus :
    (nullState.status.busy = false ∧ ¬ validOperands nullState ∧ nullBase nullState) ∧
    (dimensionState.status.busy = false ∧ ¬ validOperands dimensionState ∧ ¬ nullBase dimensionState ∧
      badDimension dimensionState) ∧
    (lengthState.status.busy = false ∧ ¬ validOperands lengthState ∧ ¬ nullBase lengthState ∧
      ¬ badDimension lengthState ∧ badLength lengthState) ∧
    (addressState.status.busy = false ∧ ¬ validOperands addressState ∧ ¬ nullBase addressState ∧
      ¬ badDimension addressState ∧ ¬ badLength addressState ∧ badAddress addressState) := by
  and_intros <;> decide
theorem witness_OverlappingViewsAreRefused :
    overlapState.status.busy = false ∧ validOperands overlapState ∧ viewsDisjoint overlapState = false := by
  decide

/-- The call at its last pixel, its outstanding write about to be answered with an error. -/
def failingLast : State := { runningLast with answers := [.error] }

theorem witness_FinishPerformsEveryWriteAndSetsDone :
    runningLast.outstanding.length = 1 ∧ ∀ k < runningLast.outstanding.length, ¬ failsAt runningLast k := by
  decide
theorem witness_FinishOnAFailedWriteIsABridgeFailure :
    failingLast.outstanding.length = 1 ∧ failsAt failingLast 0 ∧
    failingLast.outstanding.all (fun p => inOutputView failingLast p.addr && inOutputView failingLast (p.addr + 3))
      = true ∧
    inOutputView failingLast 0x2010 = false ∧ ¬ inOutputWords failingLast 0x2010 := by decide
theorem witness_LdyReadsTheLumaByte :
    running.regs.yuvBase.toNat + running.pos.yp.toNat < 2 ^ running.params.aw ∧ answer running ≠ .error := by
  decide
theorem witness_LdvuReadsVThenU :
    (running.pos.x.toNat % 2 = 0 ∧
      running.regs.yuvBase.toNat + running.pos.uvp.toNat + 1 < 2 ^ running.params.aw ∧
      answer running ≠ .error ∧ answer (answered running) ≠ .error) ∧
    runningOdd.pos.x.toNat % 2 = 1 := by decide
theorem witness_AdvGoesToTheNextPixelRowOrEnd :
    running.pos.x.toNat + 1 < running.regs.width.toNat ∧
    (runningOdd.regs.width.toNat ≤ runningOdd.pos.x.toNat + 1 ∧
      (runningOdd.pos.i + 1#32).toNat < runningOdd.regs.height.toNat) ∧
    (runningLast.regs.width.toNat ≤ runningLast.pos.x.toNat + 1 ∧
      runningLast.regs.height.toNat ≤ (runningLast.pos.i + 1#32).toNat) ∧
    ({ runningLast with outstanding := [] } : State).outstanding = [] := by decide

/-- The greatest matrix inputs (43_pixel_arithmetic.md R124). -/
def topAcc : State := withAcc fun a => { a with yq := 239#32, vq := 127#32, uq := BitVec.ofInt 32 (-128) }

theorem witness_MatrixRowsAreExact :
    0 ≤ topAcc.acc.yq.toInt ∧ topAcc.acc.yq.toInt ≤ 239 ∧ -128 ≤ topAcc.acc.vq.toInt ∧
    topAcc.acc.vq.toInt ≤ 127 ∧ -128 ≤ topAcc.acc.uq.toInt ∧ topAcc.acc.uq.toInt ≤ 127 := by decide
theorem witness_ClampCasesMonotoneIdempotent :
    (BitVec.ofInt 32 (-1)).toInt < 0 ∧ 255 < (256#32).toInt ∧ (0 ≤ (255#32).toInt ∧ (255#32).toInt ≤ 255) ∧
    (255#32).toInt ≤ (256#32).toInt := by decide

/-- The call at its last pixel with a store answered later, and on a big-endian platform. -/
def runningLater : State := { runningLast with answers := [.later] }
def runningBig : State := { runningLast with params := { Config.defaults with endian := .big } }

theorem witness_StwStoresTheWord :
    (runningLast.regs.rgbBase.toNat + 4 * runningLast.pos.yp.toNat) % 4 = 0 ∧
    runningLast.regs.rgbBase.toNat + 4 * runningLast.pos.yp.toNat + 4 ≤ 2 ^ runningLast.params.aw ∧
    answer runningLast = .ok ∧ runningLast.params.endian = .little ∧
    (runningBig.regs.rgbBase.toNat + 4 * runningBig.pos.yp.toNat + 4 ≤ 2 ^ runningBig.params.aw ∧
      answer runningBig = .ok ∧ runningBig.params.endian = .big) ∧ answer runningLater = .later := by decide
theorem witness_DatapathComputesPixelWord : running.status.busy = true := by decide
theorem witness_PixelStepWritesTheConvertedWord :
    (callInv running ∧ latchInv running ∧ running.status.busy = true ∧ running.answers = [] ∧
      running.outstanding = []) ∧
    (callInv runningOdd ∧ latchInv runningOdd ∧ runningOdd.status.busy = true ∧ runningOdd.answers = [] ∧
      runningOdd.outstanding = []) := by
  and_intros <;> decide
theorem witness_GrayAxis : (16#8).toNat ≤ (255#8).toNat := by decide
theorem witness_AlphaIsConstantAndLumaFloored : (15#8).toNat < 16 := by decide
theorem witness_AccessErrorEntersTheBridgeFailure :
    failsAt failing 0 ∧ failing.regs.yuvBase.toNat + failing.pos.yp.toNat < 2 ^ failing.params.aw ∧
    failing.pos.x.toNat % 2 = 0 ∧
    failing.regs.yuvBase.toNat + failing.pos.uvp.toNat < 2 ^ failing.params.aw ∧
    (failing.regs.rgbBase.toNat + 4 * failing.pos.yp.toNat) % 4 = 0 ∧
    failing.regs.rgbBase.toNat + 4 * failing.pos.yp.toNat + 4 ≤ 2 ^ failing.params.aw := by decide
theorem witness_SecondChromaReadErrorEntersTheBridgeFailure :
    ¬ failsAt failingSecond 0 ∧ failsAt failingSecond 1 ∧ failingSecond.pos.x.toNat % 2 = 0 ∧
    failingSecond.regs.yuvBase.toNat + failingSecond.pos.uvp.toNat + 1 < 2 ^ failingSecond.params.aw := by decide
theorem witness_NoBridgeFailureWithoutMemCanFail :
    cannotFail.params.memCanFail = false ∧ cannotFail.status.ecode ≠ 5#3 ∧ hasNext (step cannotFail) = true := by
  decide
theorem witness_OperandsLockedDuringACall :
    (running.status.busy = true ∧ running.inputs.head? ≠ some .reset ∧ hasNext (step running) = true) ∧
    hasNext (step (running.withFetchWord 72 0x80000000000000004)) = true := by decide
theorem witness_OnlyThreeEventsEndACall :
    (callInv running ∧ running.bench = none ∧ hasNext (step running) = true) ∧
    (callInv (launch.withFetchWord 72 0xE0000000000000001) ∧
      (launch.withFetchWord 72 0xE0000000000000001).bench = none ∧
      nextHas (step (launch.withFetchWord 72 0xE0000000000000001)) (fun t => statusWord t.status == 1#64) = true) ∧
    (callInv runningLast ∧ runningLast.bench = none ∧
      nextHas (step runningLast) (fun t => statusWord t.status == 2#64) = true) ∧
    (callInv failingLast ∧ failingLast.bench = none ∧
      nextHas (step failingLast) (fun t => statusWord t.status == 0x54#64) = true) ∧
    (callInv { running with inputs := [.reset] } ∧ running.bench = none ∧
      nextHas (step { running with inputs := [.reset] }) (fun t => statusWord t.status == 0#64) = true) := by
  and_intros <;> decide
theorem witness_DataNeverAffectsTheSequence : hasNext (pixelStep running) = true := by decide
theorem witness_OnlyTheOutputViewIsWritten :
    callInv running ∧ running.bench = none ∧ running.inputs.head? = none ∧ hasNext (step running) = true ∧
    inOutputView running 0x2010 = false := by decide
theorem witness_InputViewUnchangedDuringACall :
    callInv running ∧ running.bench = none ∧ running.status.busy = true ∧ hasNext (step running) = true ∧
    inInputView running 0x1000 = true ∧ inInputView running 0x1005 = true := by decide
theorem witness_PixelStepNeverStops : callInv runningLast ∧ runningLast.status.busy = true := by decide

/-- The red frame elsewhere in memory. -/
def movedFrame : State :=
  { launch with
    regs := { k23 with yuvBase := 0x3001#64 }
    mem := [(0x3001, 81#8), (0x3002, 81#8), (0x3003, 81#8), (0x3004, 81#8), (0x3005, 240#8), (0x3006, 90#8)] }

theorem witness_OutputDependsOnDimensionsAndInputOnly :
    ¬ badDimension launch ∧ movedFrame.regs.width = launch.regs.width ∧
    movedFrame.regs.height = launch.regs.height ∧
    (∀ k < frameSize launch * 3 / 2, inputByte movedFrame k = inputByte launch k) ∧ 3 < frameSize launch := by
  decide
theorem witness_HostAccessesDuringACall :
    running.bench = none ∧ launch.bench = none ∧
    (running.status.busy = true ∧ inInputView running 0x1005 = true ∧ inOutputView running 0x2000 = true) ∧
    (launch.status.busy = false ∧ 0x1005 < 2 ^ launch.params.aw) ∧
    (inInputView running 0x1006 = false ∧ inOutputView running 0x1006 = false ∧
      0x1006 < 2 ^ running.params.aw) := by decide
theorem witness_ResetAtAnyTime :
    running.bench = none ∧ launch.bench = none ∧
    ({ running with inputs := [.reset] } : State).inputs = .reset :: [] ∧ running.status.busy = true ∧
    launch.status.busy = false ∧ inOutputWords running 0x200F ∧ ¬ inOutputWords running 0x2010 := by decide
theorem witness_StepKeepsMemoryCanonical : running.mem.wf = true ∧ hasNext (step running) = true := by decide
theorem witness_StepKeepsStatusLegal :
    statusLegal running.status = true ∧ hasNext (step running) = true := by decide
theorem witness_StepKeepsTheParameters : hasNext (step runningLast) = true := by decide
theorem witness_StepKeepsTheCallInvariant :
    callInv runningOdd ∧ runningOdd.bench = none ∧ hasNext (step runningOdd) = true := by decide
theorem witness_StepKeepsTheChromaLatch :
    callInv runningOdd ∧ runningOdd.bench = none ∧ latchInv runningOdd ∧ hasNext (step runningOdd) = true := by
  decide
theorem witness_StepKeepsTheConvertedPart :
    callInv runningLast ∧ runningLast.bench = none ∧ latchInv runningLast ∧ frameInv runningLast ∧
    hasNext (step runningLast) = true := by
  and_intros <;> decide
theorem witness_CompletedCallHoldsTheFrame :
    statusLegal runningLast.status = true ∧
    (callInv runningLast ∧ runningLast.bench = none ∧ latchInv runningLast ∧ frameInv runningLast) ∧
    runningLast.status.busy = true ∧ nextHas (step runningLast) (fun t => t.status.done) = true := by
  and_intros <;> decide
theorem witness_CallEndsAfterItsPixels :
    callInv running ∧ running.bench = none ∧ running.status.busy = true ∧ running.inputs = [] ∧ running.answers = [] := by decide

/-- An outstanding write with one kind of answer coming. -/
def answering (as : List Answer) (e : Endian) : State :=
  { runningLast with answers := as, inputs := [.memAnswer], params := { Config.defaults with endian := e } }

theorem witness_MemoryAnswersTheOldestOutstandingWrite :
    (running.bench = none ∧ running.outstanding = []) ∧
    ((answering [.error] .little).bench = none ∧ (answering [.error] .little).inputs = .memAnswer :: [] ∧
      (answering [.error] .little).outstanding = { addr := 0x2008, word := 0xFFFF0100#32 } :: [] ∧
      failsAt (answering [.error] .little) 0) ∧
    (answer (answering [.ok] .little) = .ok ∧ (answering [.ok] .little).params.endian = .little) ∧
    (answer (answering [.ok] .big) = .ok ∧ (answering [.ok] .big).params.endian = .big) ∧
    answer (answering [.later] .little) = .later := by decide
theorem witness_StepKeepsTheBasesInTheirWidth :
    basesBounded launch ∧ hasNext (step (launch.withFetchWord 72 0xAFFFFFFFFFFFFFFFF)) = true := by decide

/-- The K23 operands on a platform of a smaller address space. -/
def narrow (aw : Nat) (i : List Input) : State :=
  { running with params := { Config.defaults with aw := aw }, inputs := i }

theorem witness_AccessesNoCallMakesFault :
    2 ^ (narrow 12 []).params.aw ≤ lumaAddress (narrow 12 []) ∧
    ((narrow 12 []).pos.x.toNat % 2 = 0 ∧ 2 ^ (narrow 12 []).params.aw ≤ chromaAddress (narrow 12 [])) ∧
    (chromaAddress { narrow 12 [] with regs := { k23 with yuvBase := 0xFFB#64 } } + 1 = 2 ^ 12 ∧
      answer (narrow 12 []) ≠ .error) ∧
    outputAddress { running with regs := { k23 with rgbBase := 0x2002#64 } } % 4 ≠ 0 ∧
    (outputAddress (narrow 13 []) % 4 = 0 ∧ 2 ^ (narrow 13 []).params.aw < outputAddress (narrow 13 []) + 4) ∧
    ((narrow 13 [.hostLoad 0x3000]).bench = none ∧ 2 ^ (narrow 13 []).params.aw ≤ 0x3000 ∧
      inInputView (narrow 13 []) 0x3000 = false ∧ inOutputView (narrow 13 []) 0x3000 = false ∧
      (narrow 13 [.hostLoad 0x3000]).inputs = .hostLoad 0x3000 :: []) := by decide

end Sys2Proof.Tests
end

/-! PROOFS. The register port: what each of the eight register reads answers (10_state.md R19). -/

namespace Sys2Proof.Machine

section RegisterReads

/-! ### The reads, one equation each

`BUSY` is in none of them: a read is allowed at any time, and `ret` is the one field it changes. -/

variable (d : DWord) (s : State)

@[simp] theorem exec_rdregWidth :
    exec (.rdregWidth d) s = .next { s with ret := s.regs.width.setWidth 64 } := rfl
@[simp] theorem exec_rdregHeight :
    exec (.rdregHeight d) s = .next { s with ret := s.regs.height.setWidth 64 } := rfl
@[simp] theorem exec_rdregYuvBase :
    exec (.rdregYuvBase d) s = .next { s with ret := s.regs.yuvBase } := rfl
@[simp] theorem exec_rdregYuvLen :
    exec (.rdregYuvLen d) s = .next { s with ret := s.regs.yuvLen } := rfl
@[simp] theorem exec_rdregRgbBase :
    exec (.rdregRgbBase d) s = .next { s with ret := s.regs.rgbBase } := rfl
@[simp] theorem exec_rdregRgbCap :
    exec (.rdregRgbCap d) s = .next { s with ret := s.regs.rgbCap } := rfl
@[simp] theorem exec_rdregCtrl :
    exec (.rdregCtrl d) s = .next { s with ret := 0#64 } := rfl
@[simp] theorem exec_rdregStatus :
    exec (.rdregStatus d) s = .next { s with ret := statusWord s.status } := rfl

end RegisterReads

/-! ### Zero extension of a base register -/

/-- A slot whose value is below `2 ^ n` has zeros in every bit from `n` on, those past the slot too. -/
theorem getLsbD_eq_false_of_toNat_lt_two_pow {w n k : Nat} {x : BitVec w} (hx : x.toNat < 2 ^ n)
    (hk : n ≤ k) : x.getLsbD k = false := by
  have hlt : x.toNat < 2 ^ k := hx.trans_le (Nat.pow_le_pow_right Nat.two_pos hk)
  exact Nat.testBit_lt_two_pow hlt

/-- Base registers of `AW` bits read with zeros at and above bit `AW` (10_state.md R13, R15, R19). -/
theorem bases_getLsbD_eq_false {s : State} (hs : basesBounded s) {k : Nat} (hk : s.params.aw ≤ k) :
    s.regs.yuvBase.getLsbD k = false ∧ s.regs.rgbBase.getLsbD k = false := by
  obtain ⟨hyuv, hrgb⟩ := hs
  exact ⟨getLsbD_eq_false_of_toNat_lt_two_pow hyuv hk, getLsbD_eq_false_of_toNat_lt_two_pow hrgb hk⟩

/-- Settles O9: the eight reads by their equations, the upper bits of the bases by their bound. -/
theorem readReturnsTheRegisterAndChangesNothing :
    Obligations.ReadReturnsTheRegisterAndChangesNothing := by
  intro d s
  exact ⟨exec_rdregWidth d s, exec_rdregHeight d s, exec_rdregYuvBase d s, exec_rdregYuvLen d s,
    exec_rdregRgbBase d s, exec_rdregRgbCap d s, exec_rdregCtrl d s, exec_rdregStatus d s,
    fun hs _ hk => bases_getLsbD_eq_false hs hk⟩

end Sys2Proof.Machine

/-! PROOFS. The Clamp unit: its three cases and its closed form (40_clamp.md R80). -/

namespace Sys2Proof.Machine

/-! ### The three cases -/

theorem clamp8_of_toInt_neg {x : Word} (hx : x.toInt < 0) : clamp8 x = 0#8 := if_pos hx

theorem clamp8_of_lt_toInt {x : Word} (hx : 255 < x.toInt) : clamp8 x = 255#8 := by
  have hpos : ¬ x.toInt < 0 := by omega
  rw [clamp8, if_neg hpos, if_pos hx]

/-- Between the bounds the value lies in the low byte alone, so taking that byte loses nothing. -/
theorem toNat_clamp8_of_mem {x : Word} (h0 : 0 ≤ x.toInt) (h255 : x.toInt ≤ 255) :
    ((clamp8 x).toNat : Int) = x.toInt := by
  have hnat : x.toInt = x.toNat := BitVec.toInt_eq_toNat_of_lt (BitVec.toInt_pos_iff.1 h0)
  have hbyte : x.toNat % 2 ^ 8 = x.toNat := Nat.mod_eq_of_lt (by omega)
  rw [clamp8, if_neg h0.not_gt, if_neg h255.not_gt, BitVec.extractLsb'_toNat, Nat.shiftRight_zero,
    hbyte, hnat]

/-! ### The closed form, and what follows from it -/

/-- The three cases in one: saturation to 0..255, on every input. -/
theorem toNat_clamp8 (x : Word) : ((clamp8 x).toNat : Int) = min 255 (max 0 x.toInt) := by
  rcases lt_or_ge x.toInt 0 with hneg | h0
  · rw [clamp8_of_toInt_neg hneg, max_eq_left hneg.le]
    rfl
  rw [max_eq_right h0]
  rcases lt_or_ge 255 x.toInt with hgt | h255
  · rw [clamp8_of_lt_toInt hgt, min_eq_left hgt.le]
    rfl
  · rw [toNat_clamp8_of_mem h0 h255, min_eq_right h255]

theorem clamp8_mono {x y : Word} (hxy : x.toInt ≤ y.toInt) :
    (clamp8 x).toNat ≤ (clamp8 y).toNat := by
  have hint : ((clamp8 x).toNat : Int) ≤ (clamp8 y).toNat := by
    rw [toNat_clamp8, toNat_clamp8]
    exact min_le_min_left 255 (max_le_max_left 0 hxy)
  exact Int.ofNat_le.1 hint

/-- A byte zero-extended to a word lies between the bounds, so the unit gives it back. -/
theorem clamp8_setWidth (b : Byte) : clamp8 (b.setWidth 32) = b := by
  have hlt : b.toNat < 256 := b.isLt
  have hnat : (b.setWidth 32).toNat = b.toNat := BitVec.toNat_setWidth_of_le (by decide)
  have hint : (b.setWidth 32).toInt = b.toNat := by
    rw [BitVec.toInt_eq_toNat_of_lt (by omega), hnat]
  have hmem : ((clamp8 (b.setWidth 32)).toNat : Int) = (b.setWidth 32).toInt :=
    toNat_clamp8_of_mem (by omega) (by omega)
  exact BitVec.eq_of_toNat_eq (Int.ofNat_inj.1 (hmem.trans hint))

/-- Settles O29: the cases by name, monotone by the closed form, idempotent because the unit keeps
every byte. -/
theorem clampCasesMonotoneIdempotent : Obligations.ClampCasesMonotoneIdempotent :=
  ⟨fun _ => ⟨clamp8_of_toInt_neg, clamp8_of_lt_toInt, toNat_clamp8_of_mem⟩,
    fun _ _ => clamp8_mono, fun x => clamp8_setWidth (clamp8 x)⟩

end Sys2Proof.Machine

/-! PROOFS. The command: `INIT` (41_converter_command.md R88), and the writes that have no effect
(10_state.md R20, 41_converter_command.md R92). -/

namespace Sys2Proof.Machine

/-! ### INIT -/

@[simp] theorem exec_init (s : State) : exec .init s = .next (initFrame s) := rfl

/-- Two 32-bit dimensions: their product always fits the 64-bit `FS` (41_converter_command.md R88). -/
theorem frameSize_lt_two_pow (s : State) : frameSize s < 2 ^ 64 :=
  calc frameSize s < 2 ^ 32 * 2 ^ 32 := Nat.mul_lt_mul'' s.regs.width.isLt s.regs.height.isLt
    _ = 2 ^ 64 := (Nat.pow_add 2 32 32).symm

theorem initFrame_fs_toNat (s : State) : (initFrame s).pos.fs.toNat = frameSize s :=
  Nat.mod_eq_of_lt (frameSize_lt_two_pow s)

/-- Settles O17: the state is `initFrame s` itself, and its `FS` is exact because the frame size
fits. -/
theorem initLoadsTheFrameSize : Obligations.InitLoadsTheFrameSize :=
  fun s => ⟨initFrame s, exec_init s, rfl, initFrame_fs_toNat s⟩

/-! ### The lock of the operand registers and of the command port -/

section OperandWrites

variable (d : DWord) (s : State)

/-! Each operand write is one register update under the lock of 10_state.md R20. -/

@[simp] theorem exec_wrregWidth :
    exec (.wrregWidth d) s = unlessBusy { s.regs with width := slot32 d } s := rfl
@[simp] theorem exec_wrregHeight :
    exec (.wrregHeight d) s = unlessBusy { s.regs with height := slot32 d } s := rfl
@[simp] theorem exec_wrregYuvBase :
    exec (.wrregYuvBase d) s = unlessBusy { s.regs with yuvBase := slotAddress s d } s := rfl
@[simp] theorem exec_wrregYuvLen :
    exec (.wrregYuvLen d) s = unlessBusy { s.regs with yuvLen := d } s := rfl
@[simp] theorem exec_wrregRgbBase :
    exec (.wrregRgbBase d) s = unlessBusy { s.regs with rgbBase := slotAddress s d } s := rfl
@[simp] theorem exec_wrregRgbCap :
    exec (.wrregRgbCap d) s = unlessBusy { s.regs with rgbCap := d } s := rfl

end OperandWrites

/-- The lock holds whatever the write would store. -/
theorem unlessBusy_of_busy {s : State} (hbusy : s.status.busy = true) (r : OperandRegs) :
    unlessBusy r s = .next s := by
  rw [unlessBusy, if_pos hbusy]

@[simp] theorem exec_convert (r : BitVec 63) (s : State) : exec (.convert r) s = execConvert s := rfl
@[simp] theorem exec_nopcmd (r : BitVec 63) (s : State) : exec (.nopcmd r) s = .next s := rfl
@[simp] theorem exec_wrstatus (d : DWord) (s : State) : exec (.wrstatus d) s = .next s := rfl

/-- Of the four things `CONVERT` can do, only the first is possible while `BUSY = 1`
(41_converter_command.md R92). -/
theorem execConvert_of_busy {s : State} (hbusy : s.status.busy = true) : execConvert s = .next s := by
  simpa [hbusy] using execConvert_cases s

/-- Settles O12: the six operand writes by the one lock, `CONVERT` by its own test of `BUSY`. -/
theorem writesWithoutEffect : Obligations.WritesWithoutEffect := by
  intro d r s
  refine ⟨fun hbusy => ?_, exec_nopcmd r s, exec_wrstatus d s⟩
  have hlock := unlessBusy_of_busy hbusy
  exact ⟨(exec_wrregWidth d s).trans (hlock _), (exec_wrregHeight d s).trans (hlock _),
    (exec_wrregYuvBase d s).trans (hlock _), (exec_wrregYuvLen d s).trans (hlock _),
    (exec_wrregRgbBase d s).trans (hlock _), (exec_wrregRgbCap d s).trans (hlock _),
    (exec_convert r s).trans (execConvert_of_busy hbusy)⟩

end Sys2Proof.Machine

/-! PROOFS. The accumulator words: when storing an integer in 32 bits loses nothing, and what the
datapath's functions compute on the integers (43_pixel_arithmetic.md R115, R116, R120, R121, R124). -/

namespace Sys2Proof.Machine

/-! ### Integers stored in an accumulator -/

theorem toInt_toAcc {v : Int} (hlo : -2 ^ 31 ≤ v) (hhi : v < 2 ^ 31) : (toAcc v).toInt = v :=
  BitVec.toInt_ofInt_eq_self (by decide) hlo hhi

/-- `y'` of a luma byte, over the integers (R115). -/
def lumaInt (y : Byte) : Int := max 0 ((y.toNat : Int) - 16)

/-- `v'` or `u'` of a chroma byte, over the integers (R116). -/
def chromaInt (c : Byte) : Int := (c.toNat : Int) - 128

/-- The range of `y'` in R124. -/
theorem lumaInt_range (y : Byte) : 0 ≤ lumaInt y ∧ lumaInt y ≤ 239 := by
  have hy : y.toNat < 256 := y.isLt
  rw [lumaInt]
  omega

/-- The range of `v'` and `u'` in R124. -/
theorem chromaInt_range (c : Byte) : -128 ≤ chromaInt c ∧ chromaInt c ≤ 127 := by
  have hc : c.toNat < 256 := c.isLt
  rw [chromaInt]
  omega

@[simp] theorem toInt_toAcc_lumaInt (y : Byte) : (toAcc (lumaInt y)).toInt = lumaInt y := by
  obtain ⟨hlo, hhi⟩ := lumaInt_range y
  exact toInt_toAcc (by omega) (by omega)

@[simp] theorem toInt_toAcc_chromaInt (c : Byte) : (toAcc (chromaInt c)).toInt = chromaInt c := by
  obtain ⟨hlo, hhi⟩ := chromaInt_range c
  exact toInt_toAcc (by omega) (by omega)

/-! ### One channel, from the matrix row to the byte -/

/-- The bit-level shift is the floor division of R120, and the sum with the bias fits for every
32-bit value. -/
theorem toInt_descale (c : Word) : (descale c).toInt = descaleInt c.toInt := by
  have hshift : (c.sshiftRight Config.frac).toInt = c.toInt / 1024 := by
    rw [BitVec.toInt_sshiftRight, Int.shiftRight_eq_div_pow]
    rfl
  have hlo : -2 ^ 31 ≤ c.toInt := BitVec.le_toInt c
  have hhi : c.toInt < 2 ^ 31 := BitVec.toInt_lt
  rw [descale, hshift, descaleInt, Config.roundBias]
  exact toInt_toAcc (by omega) (by omega)

theorem toNat_clampInt (v : Int) : ((clampInt v).toNat : Int) = min 255 (max 0 v) := by
  rw [clampInt, BitVec.toNat_ofInt]
  omega

/-- The Clamp unit and its form on the integers saturate alike (40_clamp.md R80). -/
theorem clamp8_eq_clampInt (x : Word) : clamp8 x = clampInt x.toInt :=
  BitVec.eq_of_toNat_eq (Int.ofNat_inj.1 ((toNat_clamp8 x).trans (toNat_clampInt x.toInt).symm))

/-- An exact matrix row that fits its accumulator gives the byte of the closed form. -/
theorem clamp8_descale_toAcc {v : Int} (hlo : -2 ^ 31 ≤ v) (hhi : v < 2 ^ 31) :
    clamp8 (descale (toAcc v)) = clampInt (descaleInt v) := by
  rw [clamp8_eq_clampInt, toInt_descale, toInt_toAcc hlo hhi]

end Sys2Proof.Machine

/-! PROOFS. The output word: its four byte fields (30_encoding.md R66, 43_pixel_arithmetic.md R122). -/

namespace Sys2Proof.Machine

/-- A byte put into a word at bit `k`. -/
def byteAt (k : Nat) (b : Byte) : Word := b.setWidth 32 <<< k

theorem extractLsb'_byteAt_same {k : Nat} (hk : k ≤ 24) (b : Byte) :
    (byteAt k b).extractLsb' k 8 = b := by
  refine BitVec.eq_of_getLsbD_eq fun i hi => ?_
  have hword : k + i < 32 := by omega
  simp [byteAt, hi, hword]

/-- A byte does not spill into its neighbours. -/
theorem extractLsb'_byteAt_other {j k : Nat} (hjk : j + 8 ≤ k ∨ k + 8 ≤ j) (b : Byte) :
    (byteAt k b).extractLsb' j 8 = 0#8 := by
  refine BitVec.eq_of_getLsbD_eq fun i hi => ?_
  rcases hjk with hbelow | habove
  · have hlt : j + i < k := by omega
    simp [byteAt, hlt]
  · have hout : b.getLsbD (j + i - k) = false := BitVec.getLsbD_of_ge b _ (by omega)
    simp [byteAt, hout]

theorem packWord_eq_or (r g b : Byte) :
    packWord r g b = byteAt 24 0xFF#8 ||| byteAt 16 r ||| byteAt 8 g ||| byteAt 0 b := by
  have halpha : Config.kAlpha = byteAt 24 0xFF#8 := by decide
  have hblue : b.setWidth 32 = byteAt 0 b := (BitVec.shiftLeft_zero _).symm
  rw [packWord, halpha, hblue]
  rfl

/-- What a field of the word takes from each of the four bytes. -/
theorem extractLsb'_packWord (r g b : Byte) (j : Nat) :
    (packWord r g b).extractLsb' j 8 = (byteAt 24 0xFF#8).extractLsb' j 8 |||
      (byteAt 16 r).extractLsb' j 8 ||| (byteAt 8 g).extractLsb' j 8 ||| (byteAt 0 b).extractLsb' j 8 := by
  simp only [packWord_eq_or, BitVec.extractLsb'_or]

@[simp] theorem packWord_alpha (r g b : Byte) : (packWord r g b).extractLsb' 24 8 = 0xFF#8 := by
  simp [extractLsb'_packWord, extractLsb'_byteAt_same, extractLsb'_byteAt_other]

@[simp] theorem packWord_red (r g b : Byte) : (packWord r g b).extractLsb' 16 8 = r := by
  simp [extractLsb'_packWord, extractLsb'_byteAt_same, extractLsb'_byteAt_other]

@[simp] theorem packWord_green (r g b : Byte) : (packWord r g b).extractLsb' 8 8 = g := by
  simp [extractLsb'_packWord, extractLsb'_byteAt_same, extractLsb'_byteAt_other]

@[simp] theorem packWord_blue (r g b : Byte) : (packWord r g b).extractLsb' 0 8 = b := by
  simp [extractLsb'_packWord, extractLsb'_byteAt_same, extractLsb'_byteAt_other]

end Sys2Proof.Machine

/-! PROOFS. The datapath from `PED` to `PACK`: each micro-operation, their composition, and what the
closed form of a pixel says of alpha and of low luma (43_pixel_arithmetic.md R115 to R122, R126, R129,
R130). -/

namespace Sys2Proof.Machine

/-! ### The micro-operations, one equation each -/

section Datapath

variable (s : State)

@[simp] theorem exec_ped :
    exec .ped s = .next { s with acc := { s.acc with yq := toAcc (lumaInt s.acc.y) } } := rfl
@[simp] theorem exec_bias :
    exec .bias s = .next { s with acc := { s.acc with
      vq := toAcc (chromaInt s.acc.v), uq := toAcc (chromaInt s.acc.u) } } := rfl
@[simp] theorem exec_matr :
    exec .matr s = .next { s with acc := { s.acc with
      rpre := toAcc (1192 * s.acc.yq.toInt + 1634 * s.acc.vq.toInt) } } := rfl
@[simp] theorem exec_matg :
    exec .matg s = .next { s with acc := { s.acc with
      gpre := toAcc (1192 * s.acc.yq.toInt - 833 * s.acc.vq.toInt - 400 * s.acc.uq.toInt) } } := rfl
@[simp] theorem exec_matb :
    exec .matb s = .next { s with acc := { s.acc with
      bpre := toAcc (1192 * s.acc.yq.toInt + 2066 * s.acc.uq.toInt) } } := rfl
@[simp] theorem exec_descale :
    exec .descale s = .next { s with acc := { s.acc with
      rs := descale s.acc.rpre, gs := descale s.acc.gpre, bs := descale s.acc.bpre } } := rfl
@[simp] theorem exec_clamp :
    exec .clamp s = .next { s with acc := { s.acc with
      r8 := clamp8 s.acc.rs, g8 := clamp8 s.acc.gs, b8 := clamp8 s.acc.bs } } := rfl
@[simp] theorem exec_pack :
    exec .pack s = .next { s with acc := { s.acc with
      word := packWord s.acc.r8 s.acc.g8 s.acc.b8 } } := rfl

end Datapath

/-- Settles O24: the result is at most 239, so the accumulator holds it exactly. -/
theorem pedRemovesThePedestal : Obligations.PedRemovesThePedestal :=
  fun s => ⟨_, exec_ped s, rfl, toInt_toAcc_lumaInt s.acc.y⟩

/-- Settles O25: both differences lie in -128..127, so the accumulators hold them exactly. -/
theorem biasRemovesTheChromaBias : Obligations.BiasRemovesTheChromaBias :=
  fun s => ⟨_, exec_bias s, rfl, toInt_toAcc_chromaInt s.acc.v, toInt_toAcc_chromaInt s.acc.u⟩

/-- Settles O27: `descale` is the floor form on every 32-bit value, so on each channel. -/
theorem descaleFloorsThenAddsTwo : Obligations.DescaleFloorsThenAddsTwo :=
  fun s => ⟨_, exec_descale s, rfl,
    toInt_descale s.acc.rpre, toInt_descale s.acc.gpre, toInt_descale s.acc.bpre⟩

/-- Settles O28: the closed form of the Clamp unit, on each channel. -/
theorem clampSaturatesEveryChannel : Obligations.ClampSaturatesEveryChannel :=
  fun s => ⟨_, exec_clamp s, rfl,
    toNat_clamp8 s.acc.rs, toNat_clamp8 s.acc.gs, toNat_clamp8 s.acc.bs⟩

/-- Settles O30: the four fields of the packed word. -/
theorem packConcatenatesTheChannels : Obligations.PackConcatenatesTheChannels := fun s =>
  ⟨_, exec_pack s, rfl, packWord_alpha _ _ _, packWord_red _ _ _, packWord_green _ _ _,
    packWord_blue _ _ _⟩

/-! ### The composition -/

/-- The closed form through the accumulator words: no row leaves the 32 bits, since R124 bounds `y'`,
`v'` and `u'`. -/
theorem packWord_rows_eq_pixelWord (y u v : Byte) :
    packWord (clamp8 (descale (toAcc (1192 * lumaInt y + 1634 * chromaInt v))))
      (clamp8 (descale (toAcc (1192 * lumaInt y - 833 * chromaInt v - 400 * chromaInt u))))
      (clamp8 (descale (toAcc (1192 * lumaInt y + 2066 * chromaInt u)))) = pixelWord y u v := by
  obtain ⟨hy0, hy239⟩ := lumaInt_range y
  obtain ⟨hulo, huhi⟩ := chromaInt_range u
  obtain ⟨hvlo, hvhi⟩ := chromaInt_range v
  rw [clamp8_descale_toAcc (by omega) (by omega), clamp8_descale_toAcc (by omega) (by omega),
    clamp8_descale_toAcc (by omega) (by omega)]
  rfl

/-- The accumulator after the eight micro-operations from `PED` to `PACK`. -/
def datapathAcc (a : Accumulator) : Accumulator :=
  let rpre := toAcc (1192 * lumaInt a.y + 1634 * chromaInt a.v)
  let gpre := toAcc (1192 * lumaInt a.y - 833 * chromaInt a.v - 400 * chromaInt a.u)
  let bpre := toAcc (1192 * lumaInt a.y + 2066 * chromaInt a.u)
  { a with
    yq := toAcc (lumaInt a.y), vq := toAcc (chromaInt a.v), uq := toAcc (chromaInt a.u)
    rpre := rpre, gpre := gpre, bpre := bpre
    rs := descale rpre, gs := descale gpre, bs := descale bpre
    r8 := clamp8 (descale rpre), g8 := clamp8 (descale gpre), b8 := clamp8 (descale bpre)
    word := pixelWord a.y a.u a.v }

/-- None of the eight touches `STATUS`, so each is run; whatever follows them starts from their
accumulator, in which the word is the closed form. -/
theorem runSequence_datapath {s : State} (hbusy : s.status.busy = true) (is : List Instr) :
    runSequence (.ped :: .bias :: .matr :: .matg :: .matb :: .descale :: .clamp :: .pack :: is) s =
      runSequence is { s with acc := datapathAcc s.acc } := by
  simp only [runSequence_cons_busy (exec_ped _), runSequence_cons_busy (exec_bias _),
    runSequence_cons_busy (exec_matr _), runSequence_cons_busy (exec_matg _),
    runSequence_cons_busy (exec_matb _), runSequence_cons_busy (exec_descale _),
    runSequence_cons_busy (exec_clamp _), runSequence_cons_busy (exec_pack _), hbusy,
    toInt_toAcc_lumaInt, toInt_toAcc_chromaInt, packWord_rows_eq_pixelWord, datapathAcc]

/-- Settles O32: the run of the eight with nothing after them. -/
theorem datapathComputesPixelWord : Obligations.DatapathComputesPixelWord :=
  fun _ hbusy => ⟨_, runSequence_datapath hbusy [], rfl, rfl, rfl, rfl, rfl⟩

/-! ### Alpha and low luma -/

/-- Luma enters the word through `y'` alone. -/
theorem pixelWord_congr_luma {y z : Byte} (hyz : lumaInt y = lumaInt z) (u v : Byte) :
    pixelWord y u v = pixelWord z u v := by
  rw [← packWord_rows_eq_pixelWord, hyz, packWord_rows_eq_pixelWord]

/-- At or below the pedestal `y'` is 0. -/
theorem lumaInt_eq_zero {y : Byte} (hy : y.toNat ≤ 16) : lumaInt y = 0 :=
  max_eq_left (by omega)

/-- Settles O35: alpha is a field of every packed word, and the floor of `y'` hides low luma. -/
theorem alphaIsConstantAndLumaFloored : Obligations.AlphaIsConstantAndLumaFloored := by
  refine ⟨fun y u v => packWord_alpha _ _ _, fun y u v hy => pixelWord_congr_luma ?_ u v⟩
  rw [lumaInt_eq_zero hy.le, lumaInt_eq_zero (le_refl 16)]

end Sys2Proof.Machine

/-! PROOFS. The precondition violation: which code `CHECK` answers, and what a refused `CONVERT` leaves
(41_converter_command.md R86, R87, 60_exceptions.md R137, R138). -/

namespace Sys2Proof.Machine

/-! ### The code of the first failing test -/

/-- The input length of a frame of `n` pixels, `n` luma bytes and half as many of chroma
(10_state.md R14). -/
theorem add_half_eq_mul_three_half (n : Nat) : n + n / 2 = n * 3 / 2 := by omega

/-- `CHECK` as the chain of the four named tests (41_converter_command.md R87). -/
theorem checkCode_eq_ite (s : State) :
    checkCode s = if nullBase s then 1#3 else if badDimension s then 2#3
      else if badLength s then 3#3 else if badAddress s then 4#3 else 0#3 := by
  rw [checkCode, add_half_eq_mul_three_half]
  rfl

section FirstFailingTest

variable {s : State}

theorem checkCode_of_nullBase (hnull : nullBase s) : checkCode s = 1#3 := by
  rw [checkCode_eq_ite, if_pos hnull]

theorem checkCode_of_badDimension (hnull : ¬ nullBase s) (hdim : badDimension s) :
    checkCode s = 2#3 := by
  rw [checkCode_eq_ite, if_neg hnull, if_pos hdim]

theorem checkCode_of_badLength (hnull : ¬ nullBase s) (hdim : ¬ badDimension s)
    (hlen : badLength s) : checkCode s = 3#3 := by
  rw [checkCode_eq_ite, if_neg hnull, if_neg hdim, if_pos hlen]

theorem checkCode_of_badAddress (hnull : ¬ nullBase s) (hdim : ¬ badDimension s)
    (hlen : ¬ badLength s) (haddr : badAddress s) : checkCode s = 4#3 := by
  rw [checkCode_eq_ite, if_neg hnull, if_neg hdim, if_neg hlen, if_pos haddr]

theorem checkCode_of_validOperands (hvalid : validOperands s) : checkCode s = 0#3 := by
  obtain ⟨hnull, hdim, hlen, haddr⟩ := hvalid
  rw [checkCode_eq_ite, if_neg hnull, if_neg hdim, if_neg hlen, if_neg haddr]

/-- No failing test shares the code 0: a code 0 excludes the four tests one after the other. -/
theorem validOperands_of_checkCode_eq_zero (hcode : checkCode s = 0#3) : validOperands s := by
  have hnull : ¬ nullBase s := fun h => by simp [checkCode_of_nullBase h] at hcode
  have hdim : ¬ badDimension s := fun h => by simp [checkCode_of_badDimension hnull h] at hcode
  have hlen : ¬ badLength s := fun h => by simp [checkCode_of_badLength hnull hdim h] at hcode
  have haddr : ¬ badAddress s := fun h => by
    simp [checkCode_of_badAddress hnull hdim hlen h] at hcode
  exact ⟨hnull, hdim, hlen, haddr⟩

theorem checkCode_eq_zero_iff : checkCode s = 0#3 ↔ validOperands s :=
  ⟨validOperands_of_checkCode_eq_zero, checkCode_of_validOperands⟩

end FirstFailingTest

/-! ### The refused command -/

/-- An idle `CONVERT` with refused operands is the precondition violation (41_converter_command.md
R86): of the four things `CONVERT` can do, the one with an idle block and a code other than 0. -/
theorem execConvert_of_not_validOperands {s : State} (hidle : s.status.busy = false)
    (hbad : ¬ validOperands s) : execConvert s = .next (raiseError (checkCode s) s) := by
  have hcode : checkCode s ≠ 0#3 := mt checkCode_eq_zero_iff.1 hbad
  simpa [hidle, hcode] using execConvert_cases s

/-- `STATUS` after an error holds the code in bits 6:4 above the `ERR` bit (10_state.md R18). -/
theorem statusWord_statusError (code : BitVec 3) :
    statusWord (statusError code) = (code ++ 4#4).setWidth 64 := by
  revert code
  decide

/-- Settles O15: the violation writes nothing but `STATUS`, whose code is that of the first failing
test. -/
theorem refusedConvertChangesOnlyStatus : Obligations.RefusedConvertChangesOnlyStatus := by
  intro r s hidle hbad
  have hstatus : ∀ {c : BitVec 3}, checkCode s = c →
      statusWord (raiseError (checkCode s) s).status = (c ++ 4#4).setWidth 64 := by
    rintro _ rfl
    exact statusWord_statusError (checkCode s)
  exact ⟨raiseError (checkCode s) s,
    (exec_convert r s).trans (execConvert_of_not_validOperands hidle hbad), rfl, rfl, rfl, rfl,
    fun hnull => hstatus (checkCode_of_nullBase hnull),
    fun hnull hdim => hstatus (checkCode_of_badDimension hnull hdim),
    fun hnull hdim hlen => hstatus (checkCode_of_badLength hnull hdim hlen),
    fun hnull hdim hlen haddr => hstatus (checkCode_of_badAddress hnull hdim hlen haddr)⟩

end Sys2Proof.Machine

/-! PROOFS. The encoding: nine bytes carry a transaction without loss, the header digit selects the
operation, and no bit is dropped (30_encoding.md R60 to R62, R64, R69). -/

namespace Sys2Proof

/-! ### A word and its bytes -/

/-- The low `n` bits and the next `k` bits of a word, put side by side, are its low `n + k` bits. -/
theorem setWidth_extractLsb'_or_shiftLeft {w v : Nat} (x : BitVec w) (n k : Nat) :
    (x.extractLsb' 0 n).setWidth v ||| (x.extractLsb' n k).setWidth v <<< n =
      (x.extractLsb' 0 (n + k)).setWidth v := by
  refine BitVec.eq_of_getLsbD_eq fun i hi => ?_
  rcases lt_or_ge i n with hlow | hhigh
  · have hsum : i < n + k := by omega
    simp [hi, hlow, hsum]
  · have hmem : decide (i - n < k) = decide (i < n + k) := by
      rw [decide_eq_decide]
      omega
    simp [hi, hhigh.not_gt, hmem, Nat.add_sub_cancel' hhigh]

@[simp] theorem headerOf_transactionOf (h : BitVec 4) (d : DWord) : headerOf (transactionOf h d) = h := by
  refine BitVec.eq_of_getLsbD_eq fun i hi => ?_
  have hword : 64 + i < 68 := by omega
  simp [headerOf, transactionOf, hi, hword]

@[simp] theorem dataOf_transactionOf (h : BitVec 4) (d : DWord) : dataOf (transactionOf h d) = d := by
  refine BitVec.eq_of_getLsbD_eq fun i hi => ?_
  have hword : i < 68 := by omega
  simp [dataOf, transactionOf, hi, hword]

@[simp] theorem transactionOf_headerOf_dataOf (t : Transaction) :
    transactionOf (headerOf t) (dataOf t) = t := by
  have hjoin := setWidth_extractLsb'_or_shiftLeft t 64 4 (v := 68)
  rw [transactionOf, BitVec.or_comm]
  simpa [headerOf, dataOf] using hjoin

/-- The eight data bytes of the container, put together again, are the data. -/
theorem joinTransaction_eq_transactionOf (t : Transaction) :
    joinTransaction (t.extractLsb' 0 8) (t.extractLsb' 8 8) (t.extractLsb' 16 8) (t.extractLsb' 24 8)
      (t.extractLsb' 32 8) (t.extractLsb' 40 8) (t.extractLsb' 48 8) (t.extractLsb' 56 8)
      ((t.extractLsb' 64 4).setWidth 8) = t := by
  have hheader : ((headerOf t).setWidth 8).extractLsb' 0 4 = headerOf t := by
    refine BitVec.eq_of_getLsbD_eq fun i hi => ?_
    have hbyte : i < 8 := by omega
    simp [hi, hbyte]
  simp only [joinTransaction, setWidth_extractLsb'_or_shiftLeft, Nat.reduceAdd, BitVec.setWidth_eq]
  exact (congrArg (transactionOf · (dataOf t)) hheader).trans (transactionOf_headerOf_dataOf t)

/-- The container loses nothing: the decoder reads a transaction from its nine bytes (log 2). -/
@[simp] theorem decode_transactionBytes (t : Transaction) :
    decode (transactionBytes t) = .ok (decodeTransaction t) := by
  rw [transactionBytes, decode, if_pos (Laws.setWidth_padding _), joinTransaction_eq_transactionOf]

/-- The decoder reads a micro-operation code from its one byte (log 2). -/
@[simp] theorem decode_uopBytes (c : UopCode) : decode (uopBytes c) = .ok (decodeUop c) := by
  revert c
  decide

/-! ### The command port's data -/

theorem ctrlData_getLsbD_zero (r : BitVec 63) (start : Bool) : (ctrlData r start).getLsbD 0 = start := by
  simp [ctrlData]

theorem ctrlData_reserved (r : BitVec 63) (start : Bool) : (ctrlData r start).extractLsb' 1 63 = r := by
  refine BitVec.eq_of_getLsbD_eq fun i hi => ?_
  have hdata : 1 + i < 64 := by omega
  simp [ctrlData, hi, hdata]

/-- `START` and the 63 ignored bits are all of the data (10_state.md R17). -/
theorem ctrlData_extractLsb' (d : DWord) : ctrlData (d.extractLsb' 1 63) (d.getLsbD 0) = d := by
  refine BitVec.eq_of_getLsbD_eq fun i hi => ?_
  rcases Nat.eq_zero_or_pos i with rfl | hpos
  · simp [ctrlData]
  · have hoff : i - 1 < 63 := by omega
    have hback : 1 + (i - 1) = i := by omega
    have hne : i ≠ 0 := by omega
    have hlt : ¬ i < 1 := by omega
    simp [ctrlData, hi, hoff, hback, hne, hlt]

@[simp] theorem decodeCtrl_ctrlData_true (r : BitVec 63) : decodeCtrl (ctrlData r true) = .convert r := by
  rw [decodeCtrl, if_pos (ctrlData_getLsbD_zero r true), ctrlData_reserved]

@[simp] theorem decodeCtrl_ctrlData_false (r : BitVec 63) : decodeCtrl (ctrlData r false) = .nopcmd r := by
  rw [decodeCtrl, if_neg (Bool.eq_false_iff.1 (ctrlData_getLsbD_zero r false)), ctrlData_reserved]

theorem encode_decodeCtrl (d : DWord) :
    encode (decodeCtrl d) = transactionBytes (transactionOf 0xE#4 d) := by
  rw [decodeCtrl]
  split
  case isTrue hstart => rw [encode, ← hstart, ctrlData_extractLsb']
  case isFalse hstart => rw [encode, ← Bool.eq_false_iff.2 hstart, ctrlData_extractLsb']

/-! ### Both directions -/

/-- Settles O1: a host operation's header digit and data are read back from its transaction, a
micro-operation from its code. -/
theorem decodeOfEncodeIsTheOperation : Obligations.DecodeOfEncodeIsTheOperation := by
  intro i
  cases i <;> simp [encode, decodeTransaction, decodeUop]

/-- The sixteen header digits, that of the command port first (30_encoding.md R61). -/
theorem headerDigit_cases (h : BitVec 4) :
    h = 0xE#4 ∨ h = 0x0#4 ∨ h = 0x1#4 ∨ h = 0x2#4 ∨ h = 0x3#4 ∨ h = 0x4#4 ∨ h = 0x5#4 ∨ h = 0x6#4 ∨
    h = 0x7#4 ∨ h = 0x8#4 ∨ h = 0x9#4 ∨ h = 0xA#4 ∨ h = 0xB#4 ∨ h = 0xC#4 ∨ h = 0xD#4 ∨ h = 0xF#4 := by
  revert h
  decide

theorem decodeTransaction_ctrl (d : DWord) :
    decodeTransaction (transactionOf 0xE#4 d) = decodeCtrl d := by
  simp [decodeTransaction]

/-- What a header digit and its data decode to encodes as that digit and that data again. -/
theorem encode_decodeTransaction_transactionOf (h : BitVec 4) (d : DWord) :
    encode (decodeTransaction (transactionOf h d)) = transactionBytes (transactionOf h d) := by
  obtain rfl | rfl | rfl | rfl | rfl | rfl | rfl | rfl | rfl | rfl | rfl | rfl | rfl | rfl | rfl | rfl :=
    headerDigit_cases h
  case inl => rw [decodeTransaction_ctrl, encode_decodeCtrl]
  all_goals simp [decodeTransaction, encode]

theorem encode_decodeTransaction (t : Transaction) :
    encode (decodeTransaction t) = transactionBytes t := by
  rw [← transactionOf_headerOf_dataOf t, encode_decodeTransaction_transactionOf]

/-- Settles O2: no transaction is illegal, and none loses a bit. -/
theorem everyTransactionDecodesAndReencodes : Obligations.EveryTransactionDecodesAndReencodes :=
  fun t => ⟨decodeTransaction t, decode_transactionBytes t, Machine.decodeTransaction_isHost t,
    encode_decodeTransaction t⟩

/-! ### The rows of the table -/

/-- The host operation by header digit and `START` bit (30_encoding.md R62). -/
def rowOperation (h : BitVec 4) (start : Bool) : Machine.HostOperation :=
  if h &&& 8#4 = 0#4 then .rdreg
  else if h = 0xF#4 then .wrstatus
  else if h = 0xE#4 then (if start then .convert else .nopcmd)
  else .wrreg

theorem hostOperation_decodeCtrl (d : DWord) :
    Machine.hostOperation (decodeCtrl d) = some (if d.getLsbD 0 then .convert else .nopcmd) := by
  rw [decodeCtrl]
  split <;> rfl

theorem hostOperation_decodeTransaction (h : BitVec 4) (d : DWord) :
    Machine.hostOperation (decodeTransaction (transactionOf h d)) =
      some (rowOperation h (d.getLsbD 0)) := by
  obtain rfl | rfl | rfl | rfl | rfl | rfl | rfl | rfl | rfl | rfl | rfl | rfl | rfl | rfl | rfl | rfl :=
    headerDigit_cases h
  case inl =>
    rw [decodeTransaction_ctrl, hostOperation_decodeCtrl]
    rfl
  all_goals simp [decodeTransaction, rowOperation, Machine.hostOperation]

theorem transactionOf_inj {h h' : BitVec 4} {d d' : DWord} :
    transactionOf h d = transactionOf h' d' ↔ h = h' ∧ d = d' := by
  constructor
  · intro heq
    exact ⟨by simpa using congrArg headerOf heq, by simpa using congrArg dataOf heq⟩
  · rintro ⟨rfl, rfl⟩
    rfl

/-- A mask works on the header digit and on the data apart. -/
theorem transactionOf_and (h h' : BitVec 4) (d d' : DWord) :
    transactionOf h d &&& transactionOf h' d' = transactionOf (h &&& h') (d &&& d') := by
  rw [← transactionOf_headerOf_dataOf (transactionOf h d &&& transactionOf h' d'), headerOf, dataOf,
    BitVec.extractLsb'_and, BitVec.extractLsb'_and]
  exact congrArg₂ transactionOf
    (congrArg₂ (· &&& ·) (headerOf_transactionOf h d) (headerOf_transactionOf h' d'))
    (congrArg₂ (· &&& ·) (dataOf_transactionOf h d) (dataOf_transactionOf h' d'))

/-- A row that looks at the header digit alone. -/
theorem and_headerMask_eq_iff (h m v : BitVec 4) (d : DWord) :
    transactionOf h d &&& transactionOf m 0#64 = transactionOf v 0#64 ↔ h &&& m = v := by
  simp [transactionOf_and, transactionOf_inj]

/-- A row that looks at the whole header digit and at the `START` bit. -/
theorem and_startMask_eq_iff (h v : BitVec 4) (d : DWord) (start : Bool) :
    transactionOf h d &&& transactionOf 0xF#4 1#64 =
        transactionOf v ((BitVec.ofBool start).setWidth 64) ↔
      h = v ∧ d.getLsbD 0 = start := by
  have hdigit : h &&& 0xF#4 = h := BitVec.and_allOnes
  have hbit : d &&& 1#64 = (BitVec.ofBool start).setWidth 64 ↔ d.getLsbD 0 = start := by
    have hone : d &&& 1#64 = (BitVec.ofBool (d.getLsbD 0)).setWidth 64 := by
      refine BitVec.eq_of_getLsbD_eq fun i hi => ?_
      rcases Nat.eq_zero_or_pos i with rfl | hpos
      · simp
      · have hne : i ≠ 0 := by omega
        simp [hne]
    rw [hone]
    cases d.getLsbD 0 <;> cases start <;> decide
  rw [transactionOf_and, transactionOf_inj, hdigit, hbit]

/-- Every row that selects a header digit and a `START` bit names their operation, and some row
does. -/
theorem rows_select_rowOperation (h : BitVec 4) (start : Bool) :
    (h &&& 0x8#4 = 0x0#4 → rowOperation h start = .rdreg) ∧
    (h &&& 0xC#4 = 0x8#4 → rowOperation h start = .wrreg) ∧
    (h &&& 0xE#4 = 0xC#4 → rowOperation h start = .wrreg) ∧
    (h = 0xE#4 ∧ start = true → rowOperation h start = .convert) ∧
    (h = 0xE#4 ∧ start = false → rowOperation h start = .nopcmd) ∧
    (h &&& 0xF#4 = 0xF#4 → rowOperation h start = .wrstatus) ∧
    (h &&& 0x8#4 = 0x0#4 ∨ h &&& 0xC#4 = 0x8#4 ∨ h &&& 0xE#4 = 0xC#4 ∨
      (h = 0xE#4 ∧ start = true) ∨ (h = 0xE#4 ∧ start = false) ∨ h &&& 0xF#4 = 0xF#4) := by
  revert h start
  decide

/-- Settles O3: the six rows are masks of the header digit and of `START`, over which the table is
finite. -/
theorem transactionRowsSelectTheHostOperation :
    Obligations.TransactionRowsSelectTheHostOperation := by
  intro t i hdecode
  obtain ⟨h, d, rfl⟩ : ∃ h d, t = transactionOf h d :=
    ⟨headerOf t, dataOf t, (transactionOf_headerOf_dataOf t).symm⟩
  obtain rfl : decodeTransaction (transactionOf h d) = i := by simpa using hdecode
  have hrows := rows_select_rowOperation h (d.getLsbD 0)
  simp only [← and_headerMask_eq_iff h _ _ d, ← and_startMask_eq_iff h _ d] at hrows
  simp only [hostOperation_decodeTransaction, Option.some.injEq]
  exact hrows

/-- Settles O4: the sixteen codes, one byte each. -/
theorem uopCodesDecode : Obligations.UopCodesDecode := by
  unfold Obligations.UopCodesDecode
  decide

/-- Settles O5: each word is its header digit above its data. -/
theorem specTransactionsDecode : Obligations.SpecTransactionsDecode := by
  simp only [Obligations.SpecTransactionsDecode, decode_transactionBytes]
  decide

end Sys2Proof

/-! PROOFS. The registers and the command, further: the layout of `STATUS`, operand writes on an idle
block, `CHECK`, an accepted and a refused `CONVERT`, `ROWSTART` and `ADV` (10_state.md R18, R20,
41_converter_command.md R85 to R88, 42_traversal_and_fetch.md R101, R105). -/

namespace Sys2Proof.Machine

/-! ### STATUS -/

/-- The bits of the value of `STATUS` (10_state.md R18). -/
theorem statusWord_bits (t : Status) :
    (statusWord t).getLsbD 0 = t.busy ∧ (statusWord t).getLsbD 1 = t.done ∧
    (statusWord t).getLsbD 2 = t.err ∧ (statusWord t).getLsbD 3 = false ∧
    (statusWord t).extractLsb' 4 3 = t.ecode ∧ (statusWord t).extractLsb' 7 57 = 0#57 := by
  obtain ⟨busy, done, err, ecode⟩ := t
  revert busy done err ecode
  decide

/-- Settles O10: the value read is the value of `STATUS`, whose bits are known. -/
theorem statusReadLayout : Obligations.StatusReadLayout :=
  fun d s => ⟨_, exec_rdregStatus d s, statusWord_bits s.status⟩

/-! ### Operand writes on an idle block -/

theorem unlessBusy_of_idle {s : State} (hidle : s.status.busy = false) (r : OperandRegs) :
    unlessBusy r s = .next { s with regs := r } := by
  simp [unlessBusy, hidle]

/-- A base register takes the bits below `AW` and no others (10_state.md R13, R15). -/
theorem getLsbD_slotAddress (s : State) (d : DWord) {k : Nat} (hk : k < 64) :
    (slotAddress s d).getLsbD k = (decide (k < s.params.aw) && d.getLsbD k) := by
  rw [slotAddress, BitVec.getLsbD_ofNat, Nat.testBit_mod_two_pow, BitVec.testBit_toNat]
  simp [hk]

/-- Settles O11: each write is one register update, which an idle block makes. -/
theorem operandWriteStoresTheLowBits : Obligations.OperandWriteStoresTheLowBits := by
  intro d s hidle
  have hwrite := unlessBusy_of_idle hidle
  exact ⟨(exec_wrregWidth d s).trans (hwrite _), (exec_wrregHeight d s).trans (hwrite _),
    ⟨slotAddress s d, (exec_wrregYuvBase d s).trans (hwrite _), fun _ hk => getLsbD_slotAddress s d hk⟩,
    (exec_wrregYuvLen d s).trans (hwrite _),
    ⟨slotAddress s d, (exec_wrregRgbBase d s).trans (hwrite _), fun _ hk => getLsbD_slotAddress s d hk⟩,
    (exec_wrregRgbCap d s).trans (hwrite _)⟩

/-! ### CHECK -/

@[simp] theorem exec_check (s : State) :
    exec .check s = .next { s with ret := (checkCode s).setWidth 64 } := rfl

/-- Settles O13: the code returned is that of the first failing test. -/
theorem checkReturnsTheFirstFailingTest : Obligations.CheckReturnsTheFirstFailingTest := by
  intro s
  have hcode : ∀ {c : BitVec 3}, checkCode s = c → (checkCode s).toNat = c.toNat := congrArg BitVec.toNat
  have hret : (checkCode s).setWidth 64 = BitVec.ofNat 64 (checkCode s).toNat :=
    (BitVec.ofNat_toNat 64 (checkCode s)).symm
  exact ⟨(checkCode s).toNat, by rw [exec_check, hret],
    fun hnull => hcode (checkCode_of_nullBase hnull),
    fun hnull hdim => hcode (checkCode_of_badDimension hnull hdim),
    fun hnull hdim hlen => hcode (checkCode_of_badLength hnull hdim hlen),
    fun hnull hdim hlen haddr => hcode (checkCode_of_badAddress hnull hdim hlen haddr),
    fun hvalid => hcode (checkCode_of_validOperands hvalid)⟩

/-! ### CONVERT -/

/-- The state of a call that has just been accepted (41_converter_command.md R85). -/
def startedCall (s : State) : State := rowStart (initFrame { s with status := statusBusy })

/-- The cursor of the first row is the start of the chroma plane. -/
theorem startedCall_uvp_toNat (s : State) : (startedCall s).pos.uvp.toNat = frameSize s := by
  have hfs : (BitVec.ofNat 64 (frameSize s)).toNat = frameSize s := initFrame_fs_toNat s
  have hzero : (0#32).toNat / 2 * s.regs.width.toNat = 0 := Nat.zero_mul _
  change (BitVec.ofNat 64 ((BitVec.ofNat 64 (frameSize s)).toNat +
    (0#32).toNat / 2 * s.regs.width.toNat)).toNat = frameSize s
  rw [hzero, Nat.add_zero, hfs, hfs]

/-- An idle block with good operands on disjoint views starts the call. -/
theorem execConvert_of_validOperands {s : State} (hidle : s.status.busy = false)
    (hvalid : validOperands s) (hdisjoint : viewsDisjoint s = true) :
    execConvert s = .next (startedCall s) := by
  simpa [hidle, hdisjoint, checkCode_of_validOperands hvalid, startedCall] using execConvert_cases s

/-- Settles O14: the call's first state differs from the idle one in `STATUS` and the position only. -/
theorem convertStartsTheCall : Obligations.ConvertStartsTheCall :=
  fun r s hidle hvalid hdisjoint => ⟨startedCall s,
    (exec_convert r s).trans (execConvert_of_validOperands hidle hvalid hdisjoint), rfl, rfl, rfl, rfl,
    rfl, initFrame_fs_toNat s, startedCall_uvp_toNat s⟩

/-- Settles O16: of the four things `CONVERT` can do, the one with the code 0 on overlapping views. -/
theorem overlappingViewsAreRefused : Obligations.OverlappingViewsAreRefused := by
  intro r s hidle hvalid hoverlap
  have hcode : checkCode s = 0#3 := checkCode_of_validOperands hvalid
  refine ⟨?_, by rw [exec_check, hcode]; rfl⟩
  simpa [hidle, hcode, hoverlap] using execConvert_cases s

/-- Settles O48: both bases are null after reset. -/
theorem convertAfterResetFailsWithNull : Obligations.ConvertAfterResetFailsWithNull := by
  intro r
  have hnull : nullBase State.reset := .inl rfl
  obtain ⟨t, hexec, hframe, -, -, -, hcode, -, -, -⟩ :=
    refusedConvertChangesOnlyStatus r State.reset rfl fun hvalid => hvalid.1 hnull
  exact ⟨t, hexec, hframe, hcode hnull⟩

/-! ### ROWSTART and ADV -/

@[simp] theorem exec_rowstart (s : State) : exec .rowstart s = .next (rowStart s) := rfl
@[simp] theorem exec_adv (s : State) : exec .adv s = execAdv s := rfl
@[simp] theorem exec_finish (s : State) : exec .finish s = finishCall s := rfl

/-- Settles O20: the division by two of `ROWSTART` is the shift of R101. -/
theorem rowstartReloadsTheCursor : Obligations.RowstartReloadsTheCursor := by
  intro s
  refine ⟨rowStart s, exec_rowstart s, rfl, ?_⟩
  rw [BitVec.toNat_ushiftRight, Nat.shiftRight_eq_div_pow]
  rfl

theorem beforeRowEnd_eq_true_iff (s : State) :
    beforeRowEnd s = true ↔ s.pos.x.toNat + 1 < s.regs.width.toNat := decide_eq_true_iff

theorem beforeRowEnd_eq_false_iff (s : State) :
    beforeRowEnd s = false ↔ s.regs.width.toNat ≤ s.pos.x.toNat + 1 := by
  rw [beforeRowEnd, decide_eq_false_iff_not, not_lt]

/-- The position of the next pixel of the row. -/
def nextPixel (s : State) : State :=
  { s with pos := { s.pos with yp := s.pos.yp + 1#64, x := s.pos.x + 1#32 } }

/-- The position of the next row, before its `ROWSTART`. -/
def nextRow (s : State) : State :=
  { s with pos := { s.pos with yp := s.pos.yp + 1#64, i := s.pos.i + 1#32 } }

section Advance

variable {s : State}

theorem execAdv_of_lt (hx : s.pos.x.toNat + 1 < s.regs.width.toNat) :
    execAdv s = .next (nextPixel s) := by
  obtain ⟨-, h⟩ | ⟨hr, -, -⟩ | ⟨hr, -, -⟩ := execAdv_cases s
  · exact h
  all_goals exact absurd ((beforeRowEnd_eq_false_iff s).1 hr) hx.not_ge

theorem execAdv_of_rowEnd (hx : s.regs.width.toNat ≤ s.pos.x.toNat + 1)
    (hi : (s.pos.i + 1#32).toNat < s.regs.height.toNat) :
    execAdv s = .next (rowStart (nextRow s)) := by
  obtain ⟨hr, -⟩ | ⟨-, -, h⟩ | ⟨-, hlast, -⟩ := execAdv_cases s
  · exact absurd ((beforeRowEnd_eq_true_iff s).1 hr) hx.not_gt
  · exact h
  · exact absurd hi hlast.not_gt

theorem execAdv_of_frameEnd (hx : s.regs.width.toNat ≤ s.pos.x.toNat + 1)
    (hi : s.regs.height.toNat ≤ (s.pos.i + 1#32).toNat) :
    execAdv s = finishCall (nextRow s) := by
  obtain ⟨hr, -⟩ | ⟨-, hlt, -⟩ | ⟨-, -, h⟩ := execAdv_cases s
  · exact absurd ((beforeRowEnd_eq_true_iff s).1 hr) hx.not_gt
  · exact absurd hlt hi.not_gt
  · exact h

end Advance

/-- With nothing outstanding there is nothing to wait for (41_converter_command.md R89). -/
theorem finishCall_of_nil {s : State} (hnone : s.outstanding = []) :
    finishCall s = .next { s with status := statusDone } := by
  rw [finishCall, hnone, awaitWrites_nil, Reply.andThen_ok]

/-- Settles O23: the three ways of `ADV`, by the two comparisons of R105. -/
theorem advGoesToTheNextPixelRowOrEnd : Obligations.AdvGoesToTheNextPixelRowOrEnd := by
  intro s
  exact ⟨fun hx => execAdv_of_lt hx,
    fun hx hi => ⟨execAdv_of_rowEnd hx hi, _, execAdv_of_rowEnd hx hi, rfl, rfl, rfl, rfl⟩,
    fun hx hi => ⟨execAdv_of_frameEnd hx hi,
      fun hnone => (execAdv_of_frameEnd hx hi).trans (finishCall_of_nil (s := nextRow s) hnone)⟩⟩

end Sys2Proof.Machine

/-! PROOFS. The accesses of the block: `LDY`, `LDVU`, `STW` and the wait of `FINISH`, with the memory's
answers (42_traversal_and_fetch.md R102, R103, 43_pixel_arithmetic.md R123, 41_converter_command.md R89,
60_exceptions.md R139, R140). -/

namespace Sys2Proof.Machine

/-! ### The memory's answers -/

theorem answer_eq_error_iff_failsAt (s : State) : answer s = .error ↔ failsAt s 0 := by
  rw [answer_eq_error_iff, List.head?_eq_getElem?]

/-- The answers to come move up by one when one is given. -/
theorem failsAt_answered (s : State) (k : Nat) : failsAt (answered s) k ↔ failsAt s (k + 1) := by
  simp [failsAt]

/-- A failing access is one the memory can fail and has an error listed for. -/
theorem error_mem_of_failsAt {s : State} {k : Nat} (h : failsAt s k) :
    s.params.memCanFail = true ∧ .error ∈ s.answers :=
  ⟨h.2, List.mem_of_getElem? h.1⟩

section Read

variable {a : Nat} {s : State}

theorem memRead_of_ok (ha : a < 2 ^ s.params.aw) (hok : answer s ≠ .error) :
    memRead a s = .ok (s.mem.read a) (answered s) := by
  rw [memRead, if_pos ha, if_neg hok]

theorem memRead_of_error (ha : a < 2 ^ s.params.aw) (herr : answer s = .error) :
    memRead a s = .error (answered s) := by
  rw [memRead, if_pos ha, if_pos herr]

theorem memRead_of_le (ha : 2 ^ s.params.aw ≤ a) : memRead a s = .fault .noSuchAddress := by
  rw [memRead, if_neg ha.not_gt]

end Read

section Write

variable {a : Nat} {s : State} (w : Word)

theorem memWrite_of_ok (h4 : a % 4 = 0) (ha : a + 4 ≤ 2 ^ s.params.aw) (hok : answer s = .ok) :
    memWrite a w s = .ok () { answered s with mem := s.mem.writeWord s.params.endian a w } := by
  simp [memWrite, h4, ha.not_gt, hok]

theorem memWrite_of_later (h4 : a % 4 = 0) (ha : a + 4 ≤ 2 ^ s.params.aw) (hlater : answer s = .later) :
    memWrite a w s =
      .ok () { answered s with outstanding := s.outstanding ++ [{ addr := a, word := w }] } := by
  simp [memWrite, h4, ha.not_gt, hlater]

theorem memWrite_of_error (h4 : a % 4 = 0) (ha : a + 4 ≤ 2 ^ s.params.aw) (herr : answer s = .error) :
    memWrite a w s = .error (answered s) := by
  simp [memWrite, h4, ha.not_gt, herr]

theorem memWrite_of_misaligned (h4 : a % 4 ≠ 0) : memWrite a w s = .fault .misalignedWrite := by
  rw [memWrite, if_pos h4]

theorem memWrite_of_lt (h4 : a % 4 = 0) (ha : 2 ^ s.params.aw < a + 4) :
    memWrite a w s = .fault .noSuchAddress := by
  rw [memWrite, if_neg (not_not.2 h4), if_pos ha]

end Write

/-- A word written lies in its four bytes in the byte order of `HOST_ENDIAN`, and no other byte changes
(20_memory.md R44). -/
theorem writeWord_bytes (m : Memory) (e : Endian) (a : Nat) (w : Word) :
    (e = .little → ∀ k < 4, (m.writeWord e a w).read (a + k) = w.extractLsb' (8 * k) 8) ∧
    (e = .big → ∀ k < 4, (m.writeWord e a w).read (a + k) = w.extractLsb' (24 - 8 * k) 8) ∧
    (∀ b, b < a ∨ a + 4 ≤ b → (m.writeWord e a w).read b = m.read b) := by
  refine ⟨?_, ?_, fun b hb => Memory.read_writeWord_outside m e a w b hb⟩
  · rintro rfl k hk
    exact Memory.read_writeWord_inside m .little a w k hk
  · rintro rfl k hk
    have hbit : 24 - 8 * k = 8 * (3 - k) := by omega
    rw [hbit]
    exact Memory.read_writeWord_inside m .big a w k hk

/-! ### What a bridge failure leaves -/

theorem statusWord_statusDone : statusWord statusDone = 0x02#64 := by decide
theorem statusWord_bridge : statusWord (statusError codeBridge) = 0x54#64 := by decide

theorem lt_or_ge_of_not_inOutputWords {s : State} {a : Nat} (ha : ¬ inOutputWords s a) :
    a < s.regs.rgbBase.toNat ∨ s.regs.rgbBase.toNat + 4 * frameSize s ≤ a := by
  rw [inOutputWords] at ha
  omega

/-- A bridge failure, raised where answers were taken and accumulators loaded, leaves what R139 and R140
say. -/
theorem bridgeEnding_raiseBridge (s : State) (as : List Answer) (c : Accumulator) :
    bridgeEnding s (raiseBridge { s with answers := as, acc := c }) := by
  refine ⟨rfl, statusWord_bridge, rfl, rfl, fun a ha => ?_, fun a ha => ?_, rfl, rfl, rfl, rfl⟩
  · exact raiseBridge_read_outside _ a (lt_or_ge_of_not_inOutputWords ha)
  · rw [raiseBridge_mem, Memory.read_unspecify]
    exact if_pos ha

/-! ### LDY -/

@[simp] theorem exec_ldy (s : State) :
    exec .ldy s = (memRead (lumaAddress s) s).andThen fun b t =>
      .next { t with acc := { t.acc with y := b } } := rfl

/-- The state once the luma byte has been read. -/
def lumaLoaded (s : State) : State :=
  { answered s with acc := { s.acc with y := s.mem.read (lumaAddress s) } }

theorem exec_ldy_of_ok {s : State} (ha : lumaAddress s < 2 ^ s.params.aw) (hok : answer s ≠ .error) :
    exec .ldy s = .next (lumaLoaded s) := by
  rw [exec_ldy, memRead_of_ok ha hok]
  rfl

theorem exec_ldy_of_error {s : State} (ha : lumaAddress s < 2 ^ s.params.aw) (herr : answer s = .error) :
    exec .ldy s = .next (raiseBridge (answered s)) := by
  rw [exec_ldy, memRead_of_error ha herr, Reply.andThen_error]

theorem exec_ldy_of_le {s : State} (ha : 2 ^ s.params.aw ≤ lumaAddress s) :
    exec .ldy s = .fault .noSuchAddress := by
  rw [exec_ldy, memRead_of_le ha, Reply.andThen_fault]

/-- Settles O21: the one read of `LDY`. -/
theorem ldyReadsTheLumaByte : Obligations.LdyReadsTheLumaByte :=
  fun _ ha hok => exec_ldy_of_ok ha hok

/-! ### LDVU -/

theorem xEven_eq_true_iff (s : State) : xEven s = true ↔ s.pos.x.toNat % 2 = 0 := by
  have hbit : s.pos.x.getLsbD 0 = decide (s.pos.x.toNat % 2 = 1) := Nat.testBit_zero s.pos.x.toNat
  rw [xEven, hbit, beq_iff_eq, decide_eq_false_iff_not]
  omega

theorem exec_ldvu_of_odd {s : State} (hx : s.pos.x.toNat % 2 = 1) : exec .ldvu s = .next s := by
  have hodd : ¬ xEven s = true := by
    rw [xEven_eq_true_iff]
    omega
  exact if_neg hodd

theorem exec_ldvu_of_even {s : State} (hx : s.pos.x.toNat % 2 = 0) :
    exec .ldvu s = (memRead (chromaAddress s) s).andThen fun b t =>
      loadU (chromaAddress s) { t with acc := { t.acc with v := b } } :=
  if_pos ((xEven_eq_true_iff s).2 hx)

/-- The state once the V byte has been read. -/
def vLoaded (s : State) : State :=
  { answered s with acc := { s.acc with v := s.mem.read (chromaAddress s) } }

/-- The state once the pair has been read and the cursor advanced. -/
def chromaLoaded (s : State) : State :=
  { s with
    answers := s.answers.tail.tail
    acc := { s.acc with v := s.mem.read (chromaAddress s), u := s.mem.read (chromaAddress s + 1) }
    pos := { s.pos with uvp := s.pos.uvp + 2#64 } }

section Chroma

variable {s : State} (hx : s.pos.x.toNat % 2 = 0)
include hx

/-- After the V byte the U byte is read from the state in which the first answer has been given. -/
theorem exec_ldvu_of_firstOk (ha : chromaAddress s < 2 ^ s.params.aw) (hok : answer s ≠ .error) :
    exec .ldvu s = (memRead (chromaAddress s + 1) (vLoaded s)).andThen fun b t =>
      .next { t with acc := { t.acc with u := b }, pos := { t.pos with uvp := t.pos.uvp + 2#64 } } := by
  rw [exec_ldvu_of_even hx, memRead_of_ok ha hok]
  rfl

theorem exec_ldvu_of_ok (ha : chromaAddress s + 1 < 2 ^ s.params.aw) (hv : answer s ≠ .error)
    (hu : answer (answered s) ≠ .error) : exec .ldvu s = .next (chromaLoaded s) := by
  have hu' : answer (vLoaded s) ≠ .error := hu
  rw [exec_ldvu_of_firstOk hx (by omega) hv, memRead_of_ok (s := vLoaded s) ha hu']
  rfl

theorem exec_ldvu_of_firstError (ha : chromaAddress s < 2 ^ s.params.aw) (hv : answer s = .error) :
    exec .ldvu s = .next (raiseBridge (answered s)) := by
  rw [exec_ldvu_of_even hx, memRead_of_error ha hv, Reply.andThen_error]

theorem exec_ldvu_of_secondError (ha : chromaAddress s + 1 < 2 ^ s.params.aw) (hv : answer s ≠ .error)
    (hu : answer (answered s) = .error) :
    exec .ldvu s = .next (raiseBridge (answered (vLoaded s))) := by
  have hu' : answer (vLoaded s) = .error := hu
  rw [exec_ldvu_of_firstOk hx (by omega) hv, memRead_of_error (s := vLoaded s) ha hu', Reply.andThen_error]

theorem exec_ldvu_of_firstMissing (ha : 2 ^ s.params.aw ≤ chromaAddress s) :
    exec .ldvu s = .fault .noSuchAddress := by
  rw [exec_ldvu_of_even hx, memRead_of_le ha, Reply.andThen_fault]

theorem exec_ldvu_of_secondMissing (ha : chromaAddress s + 1 = 2 ^ s.params.aw) (hv : answer s ≠ .error) :
    exec .ldvu s = .fault .noSuchAddress := by
  have hmissing : 2 ^ (vLoaded s).params.aw ≤ chromaAddress s + 1 := ha.ge
  rw [exec_ldvu_of_firstOk hx (by omega) hv, memRead_of_le (s := vLoaded s) hmissing, Reply.andThen_fault]

end Chroma

/-- Settles O22: two reads in order at even `X`, none at odd `X`. -/
theorem ldvuReadsVThenU : Obligations.LdvuReadsVThenU :=
  fun _ => ⟨fun hx ha hv hu => exec_ldvu_of_ok hx ha hv hu, fun hx => exec_ldvu_of_odd hx⟩

/-! ### STW -/

@[simp] theorem exec_stw (s : State) :
    exec .stw s = (memWrite (outputAddress s) s.acc.word s).andThen fun _ t => .next t := rfl

/-- The state once `acc.WORD` is in memory. -/
def wordStored (s : State) : State :=
  { answered s with mem := s.mem.writeWord s.params.endian (outputAddress s) s.acc.word }

/-- The state once the write of `acc.WORD` is under way. -/
def wordPosted (s : State) : State :=
  { answered s with
    outstanding := s.outstanding ++ [{ addr := outputAddress s, word := s.acc.word }] }

section Store

variable {s : State} (h4 : outputAddress s % 4 = 0)
include h4

theorem exec_stw_of_lt (ha : 2 ^ s.params.aw < outputAddress s + 4) :
    exec .stw s = .fault .noSuchAddress := by
  rw [exec_stw, memWrite_of_lt _ h4 ha, Reply.andThen_fault]

variable (ha : outputAddress s + 4 ≤ 2 ^ s.params.aw)
include ha

theorem exec_stw_of_ok (hok : answer s = .ok) : exec .stw s = .next (wordStored s) := by
  rw [exec_stw, memWrite_of_ok _ h4 ha hok]
  rfl

theorem exec_stw_of_later (hlater : answer s = .later) : exec .stw s = .next (wordPosted s) := by
  rw [exec_stw, memWrite_of_later _ h4 ha hlater]
  rfl

theorem exec_stw_of_error (herr : answer s = .error) :
    exec .stw s = .next (raiseBridge (answered s)) := by
  rw [exec_stw, memWrite_of_error _ h4 ha herr, Reply.andThen_error]

end Store

theorem exec_stw_of_misaligned {s : State} (h4 : outputAddress s % 4 ≠ 0) :
    exec .stw s = .fault .misalignedWrite := by
  rw [exec_stw, memWrite_of_misaligned _ h4, Reply.andThen_fault]

/-- Settles O31: a word stored at once lies in its four bytes; a word answered later is under way. -/
theorem stwStoresTheWord : Obligations.StwStoresTheWord := fun s h4 ha =>
  ⟨fun hok => ⟨wordStored s, exec_stw_of_ok h4 ha hok, rfl, writeWord_bytes s.mem s.params.endian _ _⟩,
    fun hlater => exec_stw_of_later h4 ha hlater⟩

/-! ### Error answers -/

/-- Settles O36: each access answered with an error raises the bridge failure on the state in which only
the answer has been taken. -/
theorem accessErrorEntersTheBridgeFailure : Obligations.AccessErrorEntersTheBridgeFailure := by
  intro s hfail
  have herr : answer s = .error := (answer_eq_error_iff_failsAt s).2 hfail
  have hending : bridgeEnding s (raiseBridge (answered s)) :=
    bridgeEnding_raiseBridge s s.answers.tail s.acc
  exact ⟨fun ha => ⟨_, exec_ldy_of_error ha herr, hending⟩,
    fun hx ha => ⟨_, exec_ldvu_of_firstError hx ha herr, hending⟩,
    fun h4 ha => ⟨_, exec_stw_of_error h4 ha herr, hending⟩⟩

/-- Settles O37: only the answers and `acc.V` differ where the second read fails. -/
theorem secondChromaReadErrorEntersTheBridgeFailure :
    Obligations.SecondChromaReadErrorEntersTheBridgeFailure := by
  intro s hfirst hsecond hx ha
  have hv : answer s ≠ .error := mt (answer_eq_error_iff_failsAt s).1 hfirst
  have hu : answer (answered s) = .error :=
    (answer_eq_error_iff_failsAt _).2 ((failsAt_answered s 0).2 hsecond)
  exact ⟨_, exec_ldvu_of_secondError hx ha hv hu, bridgeEnding_raiseBridge s _ _⟩

/-! ### The wait of FINISH -/

/-- Memory with a list of writes performed in order. -/
def performed (e : Endian) (ps : List Posted) (m : Memory) : Memory :=
  ps.foldl (fun m p => m.writeWord e p.addr p.word) m

theorem settledMem_eq_performed (s : State) :
    settledMem s = performed s.params.endian s.outstanding s.mem := rfl

@[simp] theorem performed_nil (e : Endian) (m : Memory) : performed e [] m = m := rfl

@[simp] theorem performed_cons (e : Endian) (p : Posted) (ps : List Posted) (m : Memory) :
    performed e (p :: ps) m = performed e ps (m.writeWord e p.addr p.word) := rfl

theorem performed_append (e : Endian) (ps qs : List Posted) (m : Memory) :
    performed e (ps ++ qs) m = performed e qs (performed e ps m) := List.foldl_append

/-- Writes elsewhere leave a byte as it was. -/
theorem read_performed_outside (e : Endian) (a : Nat) (ps : List Posted) (m : Memory)
    (hps : ∀ p ∈ ps, a < p.addr ∨ p.addr + 4 ≤ a) : (performed e ps m).read a = m.read a := by
  induction ps generalizing m with
  | nil => rfl
  | cons p ps ih =>
    rw [performed_cons, ih _ fun q hq => hps q (List.mem_cons_of_mem p hq),
      Memory.read_writeWord_outside m e p.addr p.word a (hps p List.mem_cons_self)]

theorem wf_performed (e : Endian) (ps : List Posted) (m : Memory) (hm : m.wf = true) :
    (performed e ps m).wf = true := by
  induction ps generalizing m with
  | nil => exact hm
  | cons p ps ih => exact ih _ (Memory.wf_writeWord m e p.addr p.word hm)

/-- When no awaited write fails, all are performed, with one answer each. -/
theorem awaitWrites_of_ok (ps : List Posted) (s : State) (hok : ∀ k < ps.length, ¬ failsAt s k) :
    awaitWrites ps s = .ok () { answeredTimes s ps.length with
      mem := performed s.params.endian ps s.mem, outstanding := [] } := by
  induction ps generalizing s with
  | nil => simp [answeredTimes]
  | cons p ps ih =>
    have hfirst : answer s ≠ .error := mt (answer_eq_error_iff_failsAt s).1 (hok 0 (by simp))
    have hrest : ∀ k < ps.length, ¬ failsAt (answered s) k := fun k hk =>
      mt (failsAt_answered s k).1 (hok (k + 1) (by simpa using hk))
    rw [awaitWrites, if_neg hfirst,
      ih { answered s with mem := s.mem.writeWord s.params.endian p.addr p.word } hrest]
    simp [answeredTimes, answered]

/-- When one fails, the writes before the first that does have been performed. -/
theorem awaitWrites_of_error (ps : List Posted) (s : State) (herr : ∃ k < ps.length, failsAt s k) :
    ∃ n, failsAt s n ∧ awaitWrites ps s = .error { answeredTimes s (n + 1) with
      mem := performed s.params.endian (ps.take n) s.mem } := by
  induction ps generalizing s with
  | nil => simp at herr
  | cons p ps ih =>
    by_cases hfirst : failsAt s 0
    · refine ⟨0, hfirst, ?_⟩
      rw [awaitWrites, if_pos ((answer_eq_error_iff_failsAt s).2 hfirst)]
      simp [answeredTimes, answered]
    · obtain ⟨k, hk, hfail⟩ := herr
      obtain ⟨j, rfl⟩ : ∃ j, k = j + 1 :=
        Nat.exists_eq_succ_of_ne_zero fun h0 => hfirst (h0 ▸ hfail)
      obtain ⟨n, hn, hawait⟩ := ih
        { answered s with mem := s.mem.writeWord s.params.endian p.addr p.word }
        ⟨j, by simpa using hk, (failsAt_answered s j).2 hfail⟩
      refine ⟨n + 1, (failsAt_answered s n).1 hn, ?_⟩
      rw [awaitWrites, if_neg (mt (answer_eq_error_iff_failsAt s).1 hfirst), hawait]
      simp [answeredTimes, answered]

/-- A completed call: every outstanding write performed and answered. -/
def completedCall (s : State) : State :=
  { s with status := statusDone, mem := settledMem s, outstanding := [],
           answers := s.answers.drop s.outstanding.length }

theorem finishCall_of_ok {s : State} (hok : ∀ k < s.outstanding.length, ¬ failsAt s k) :
    finishCall s = .next (completedCall s) := by
  rw [finishCall, awaitWrites_of_ok _ s hok]
  rfl

/-- A wait that fails at access `n`: the writes before it performed. -/
def failedWait (s : State) (n : Nat) : State :=
  { answeredTimes s (n + 1) with mem := performed s.params.endian (s.outstanding.take n) s.mem }

theorem finishCall_of_error {s : State} (herr : ∃ k < s.outstanding.length, failsAt s k) :
    ∃ n, failsAt s n ∧ finishCall s = .next (raiseBridge (failedWait s n)) := by
  obtain ⟨n, hn, hawait⟩ := awaitWrites_of_error s.outstanding s herr
  exact ⟨n, hn, by rw [finishCall, hawait]; rfl⟩

/-- The two ends of `FINISH` (41_converter_command.md R89). -/
theorem finishCall_ends (s : State) :
    finishCall s = .next (completedCall s) ∨
    ∃ n, failsAt s n ∧ finishCall s = .next (raiseBridge (failedWait s n)) := by
  by_cases herr : ∃ k < s.outstanding.length, failsAt s k
  · exact .inr (finishCall_of_error herr)
  · exact .inl (finishCall_of_ok fun k hk hfail => herr ⟨k, hk, hfail⟩)

/-- Where no outstanding write goes and no output word lies, a failed wait changes nothing. -/
theorem raiseBridge_failedWait_read {s : State} {n a : Nat}
    (hout : ∀ p ∈ s.outstanding, a < p.addr ∨ p.addr + 4 ≤ a)
    (hwords : ¬ inOutputWords s a) :
    (raiseBridge (failedWait s n)).mem.read a = s.mem.read a := by
  rw [raiseBridge_read_outside (failedWait s n) a (lt_or_ge_of_not_inOutputWords hwords)]
  exact read_performed_outside _ a _ s.mem fun p hp => hout p (List.mem_of_mem_take hp)

/-- Settles O18: the wait without a failure. -/
theorem finishPerformsEveryWriteAndSetsDone : Obligations.FinishPerformsEveryWriteAndSetsDone :=
  fun s hok => ⟨completedCall s, (exec_finish s).trans (finishCall_of_ok hok),
    statusWord_statusDone, rfl⟩

theorem inOutputView_eq_true_iff (s : State) (a : Nat) :
    inOutputView s a = true ↔
      s.regs.rgbBase.toNat ≤ a ∧ a < s.regs.rgbBase.toNat + 4 * s.regs.rgbCap.toNat := by
  simp [inOutputView]

/-- A write whose first and last byte lie in the output view has no byte outside it. -/
theorem apart_of_not_inOutputView {s : State} {p : Posted} {a : Nat}
    (hp : (inOutputView s p.addr && inOutputView s (p.addr + 3)) = true)
    (ha : inOutputView s a = false) : a < p.addr ∨ p.addr + 4 ≤ a := by
  simp only [Bool.and_eq_true, inOutputView_eq_true_iff] at hp
  rw [← Bool.not_eq_true, inOutputView_eq_true_iff] at ha
  omega

/-- Settles O19: the wait with a failure. -/
theorem finishOnAFailedWriteIsABridgeFailure : Obligations.FinishOnAFailedWriteIsABridgeFailure := by
  intro s herr
  obtain ⟨n, -, hfinish⟩ := finishCall_of_error herr
  refine ⟨_, (exec_finish s).trans hfinish, statusWord_bridge, rfl, rfl, fun hview a ha hwords => ?_⟩
  exact raiseBridge_failedWait_read
    (fun p hp => apart_of_not_inOutputView (List.all_eq_true.1 hview p hp) ha) hwords

end Sys2Proof.Machine

/-! PROOFS. The arithmetic of a pixel, further: the matrix rows, the gray axis, and what a converted word
depends on (43_pixel_arithmetic.md R117 to R119, R124, R127, 41_converter_command.md R91). -/

namespace Sys2Proof.Machine

/-! ### The matrix rows -/

/-- A row that stays in a range of 32 bits is stored exactly, and so in its range (R124). -/
theorem toInt_toAcc_of_range {v lo hi : Int} (hlo : lo ≤ v) (hhi : v ≤ hi)
    (hmin : -2 ^ 31 ≤ lo := by decide) (hmax : hi < 2 ^ 31 := by decide) :
    (toAcc v).toInt = v ∧ lo ≤ (toAcc v).toInt ∧ (toAcc v).toInt ≤ hi := by
  have hexact : (toAcc v).toInt = v := toInt_toAcc (hmin.trans hlo) (hhi.trans_lt hmax)
  exact ⟨hexact, hexact.symm ▸ hlo, hexact.symm ▸ hhi⟩

/-- Settles O26: over the values of `PED` and `BIAS` each row has the range R124 gives it, which fits
its accumulator. -/
theorem matrixRowsAreExact : Obligations.MatrixRowsAreExact := by
  intro s
  refine ⟨⟨_, exec_matr s, rfl, rfl, fun hy0 hy hv0 hv => ?_⟩,
    ⟨_, exec_matg s, rfl, rfl, fun hy0 hy hv0 hv hu0 hu => ?_⟩,
    ⟨_, exec_matb s, rfl, rfl, fun hy0 hy hu0 hu => ?_⟩⟩
  all_goals exact toInt_toAcc_of_range (by omega) (by omega)

/-! ### The gray axis -/

/-- The channel of a gray pixel (R127). -/
def grayChannel (y : Byte) : Byte := clampInt (descaleInt (1192 * lumaInt y))

/-- Without chroma the three rows are one. -/
theorem pixelWord_gray (y : Byte) :
    pixelWord y 128#8 128#8 = packWord (grayChannel y) (grayChannel y) (grayChannel y) := by
  have hred : 1192 * lumaInt y + 1634 * chromaInt 128#8 = 1192 * lumaInt y := Int.add_zero _
  have hgreen : 1192 * lumaInt y - 833 * chromaInt 128#8 - 400 * chromaInt 128#8 = 1192 * lumaInt y :=
    (Int.sub_zero _).trans (Int.sub_zero _)
  have hblue : 1192 * lumaInt y + 2066 * chromaInt 128#8 = 1192 * lumaInt y := Int.add_zero _
  change packWord (clampInt (descaleInt (1192 * lumaInt y + 1634 * chromaInt 128#8)))
    (clampInt (descaleInt (1192 * lumaInt y - 833 * chromaInt 128#8 - 400 * chromaInt 128#8)))
    (clampInt (descaleInt (1192 * lumaInt y + 2066 * chromaInt 128#8))) = _
  rw [hred, hgreen, hblue, grayChannel]

theorem toNat_grayChannel (y : Byte) :
    ((grayChannel y).toNat : Int) = min 255 (1192 * lumaInt y / 1024 + 2) := by
  have hpos : 0 ≤ lumaInt y := (lumaInt_range y).1
  rw [grayChannel, toNat_clampInt, descaleInt, Config.roundBias, max_eq_right (by omega)]

theorem grayChannel_mono {y z : Byte} (hyz : y.toNat ≤ z.toNat) :
    (grayChannel y).toNat ≤ (grayChannel z).toNat := by
  have hluma : lumaInt y ≤ lumaInt z := max_le_max_left 0 (by omega)
  have hy := toNat_grayChannel y
  have hz := toNat_grayChannel z
  omega

/-- Settles O34: the one channel of a gray pixel, its formula and its monotony. -/
theorem grayAxis : Obligations.GrayAxis := by
  refine ⟨fun y => ⟨grayChannel y, pixelWord_gray y, toNat_grayChannel y⟩, fun y z hyz => ?_⟩
  rw [pixelWord_gray, pixelWord_gray, packWord_blue, packWord_blue]
  exact grayChannel_mono hyz

/-! ### The input bytes of a pixel -/

/-- The index of the V byte of the pixel in row `i` and column `x` (42_traversal_and_fetch.md R110). -/
def chromaIndex (s : State) (i x : Nat) : Nat :=
  frameSize s + i / 2 * s.regs.width.toNat + 2 * (x / 2)

theorem convertWord_eq (s : State) (p : Nat) :
    convertWord s p = pixelWord (inputByte s p)
      (inputByte s (chromaIndex s (p / s.regs.width.toNat) (p % s.regs.width.toNat) + 1))
      (inputByte s (chromaIndex s (p / s.regs.width.toNat) (p % s.regs.width.toNat))) := rfl

/-- The pair of every pixel lies inside the chroma plane (10_state.md R14). -/
theorem chromaIndex_lt {s : State} (hdim : ¬ badDimension s) {i x : Nat} (hi : i < s.regs.height.toNat)
    (hx : x < s.regs.width.toNat) : chromaIndex s i x + 1 < frameSize s + frameSize s / 2 := by
  obtain ⟨hw, hh⟩ : s.regs.width.toNat % 2 = 0 ∧ s.regs.height.toNat % 2 = 0 := by
    rw [badDimension] at hdim
    omega
  obtain ⟨h, hheight⟩ : ∃ h, s.regs.height.toNat = 2 * h := Nat.dvd_of_mod_eq_zero hh
  have hplane : frameSize s / 2 = h * s.regs.width.toNat := by
    rw [frameSize, hheight, Nat.mul_left_comm, Nat.mul_div_cancel_left _ Nat.two_pos, Nat.mul_comm]
  have hrow : (i / 2 + 1) * s.regs.width.toNat ≤ h * s.regs.width.toNat :=
    Nat.mul_le_mul_right _ (by omega)
  rw [Nat.add_mul, Nat.one_mul] at hrow
  rw [chromaIndex, hplane]
  omega

/-- Row and column of a pixel of the frame. -/
theorem pixel_row_column {s : State} {p : Nat} (hp : p < frameSize s) :
    p / s.regs.width.toNat < s.regs.height.toNat ∧ p % s.regs.width.toNat < s.regs.width.toNat := by
  have hwidth : 0 < s.regs.width.toNat := Nat.pos_of_ne_zero fun h0 => by simp [frameSize, h0] at hp
  exact ⟨Nat.div_lt_of_lt_mul hp, Nat.mod_lt p hwidth⟩

/-- Two states of one frame size with equal bytes throughout the input have equal words. -/
theorem convertWord_congr {s t : State} (hdim : ¬ badDimension s) (hw : t.regs.width = s.regs.width)
    (hh : t.regs.height = s.regs.height)
    (hbytes : ∀ k < frameSize s + frameSize s / 2, inputByte t k = inputByte s k) {p : Nat}
    (hp : p < frameSize s) : convertWord t p = convertWord s p := by
  obtain ⟨hi, hx⟩ := pixel_row_column hp
  have hpair := chromaIndex_lt hdim hi hx
  have hindex : ∀ i x, chromaIndex t i x = chromaIndex s i x := fun i x => by
    simp only [chromaIndex, frameSize, hw, hh]
  rw [convertWord_eq, convertWord_eq, hw, hindex, hbytes p (by omega), hbytes _ hpair,
    hbytes _ (Nat.lt_of_succ_lt hpair)]

/-- Settles O45: a pixel reads its luma byte and its pair, all inside the input. -/
theorem outputDependsOnDimensionsAndInputOnly : Obligations.OutputDependsOnDimensionsAndInputOnly := by
  intro s t hdim hw hh hbytes p hp
  rw [← add_half_eq_mul_three_half] at hbytes
  exact convertWord_congr hdim hw hh hbytes hp

end Sys2Proof.Machine

/-! PROOFS. One step: what every move but a host transaction and reset keeps, what a host transaction can
do, and the rules of the step that follow from any state (00_scope.md R5, 10_state.md R18, R20). -/

namespace Sys2Proof.Machine

/-! ### What a micro-operation keeps -/

/-- What every move keeps but a host transaction and reset: all that is not the call's, memory in its
form, and `STATUS`, unless the call completes or an error answer ends it. -/
structure Keeps (s t : State) : Prop where
  regs : t.regs = s.regs
  params : t.params = s.params
  bench : t.bench = s.bench
  inputs : t.inputs = s.inputs
  wf : s.mem.wf = true → t.mem.wf = true
  answers : t.answers <:+ s.answers
  status : t.status = s.status ∨ t.status = statusDone ∨
    (t.status = statusError codeBridge ∧ s.params.memCanFail = true ∧ .error ∈ s.answers)

theorem Keeps.trans {s t u : State} (hst : Keeps s t) (htu : Keeps t u) : Keeps s u where
  regs := htu.regs.trans hst.regs
  params := htu.params.trans hst.params
  bench := htu.bench.trans hst.bench
  inputs := htu.inputs.trans hst.inputs
  wf h := htu.wf (hst.wf h)
  answers := htu.answers.trans hst.answers
  status := by
    rcases htu.status with hsame | hdone | ⟨hbridge, hcan, herr⟩
    · rw [hsame]
      exact hst.status
    · exact .inr (.inl hdone)
    · exact .inr (.inr ⟨hbridge, hst.params ▸ hcan, hst.answers.subset herr⟩)

/-- What a datapath operation, a read of the host or a move of the cursor writes. -/
theorem Keeps.put (s : State) (c : Accumulator) (p : Position) (v : DWord) :
    Keeps s { s with acc := c, pos := p, ret := v } :=
  ⟨rfl, rfl, rfl, rfl, id, List.suffix_rfl, .inl rfl⟩

theorem Keeps.refl (s : State) : Keeps s s := .put s s.acc s.pos s.ret

/-- Answers taken and writes performed or issued. -/
theorem Keeps.access (s : State) {m : Memory} (o : List Posted) (n : Nat)
    (hm : s.mem.wf = true → m.wf = true) :
    Keeps s { s with mem := m, outstanding := o, answers := s.answers.drop n } :=
  ⟨rfl, rfl, rfl, rfl, hm, List.drop_suffix n s.answers, .inl rfl⟩

theorem Keeps.answered (s : State) : Keeps s (answered s) := by
  simpa [Machine.answered] using Keeps.access s s.outstanding 1 id

theorem Keeps.completed (s : State) : Keeps s (completedCall s) :=
  ⟨rfl, rfl, rfl, rfl, wf_performed _ _ s.mem, List.drop_suffix _ s.answers, .inr (.inl rfl)⟩

/-- A bridge failure keeps what its answers and writes keep, and shows that an access has failed. -/
theorem Keeps.bridge {s u : State} {n : Nat} (hsu : Keeps s u) (hfail : failsAt s n) :
    Keeps s (raiseBridge u) :=
  ⟨hsu.regs, hsu.params, hsu.bench, hsu.inputs, fun h => Memory.wf_unspecify _ _ _ _ (hsu.wf h),
    hsu.answers, .inr (.inr ⟨rfl, error_mem_of_failsAt hfail⟩)⟩

/-- A read, then whatever follows it. -/
theorem Keeps.of_memRead {a : Nat} {s t : State} {k : Byte → State → StepOutcome}
    (h : (memRead a s).andThen k = .next t)
    (hk : ∀ b, k b (Machine.answered s) = .next t → Keeps (Machine.answered s) t) : Keeps s t := by
  obtain ⟨-, -, hread⟩ | ⟨-, herr, hread⟩ | ⟨-, hread⟩ := memRead_cases a s <;> rw [hread] at h
  · exact (Keeps.answered s).trans (hk _ h)
  · obtain rfl : raiseBridge (Machine.answered s) = t := Host.Outcome.next.inj h
    exact (Keeps.answered s).bridge ((answer_eq_error_iff_failsAt s).1 herr)
  · simp at h

theorem Keeps.of_memWrite {a : Nat} {w : Word} {s t : State}
    (h : ((memWrite a w s).andThen fun _ u => .next u) = .next t) : Keeps s t := by
  obtain ⟨-, -, -, hw⟩ | ⟨-, -, -, hw⟩ | ⟨-, -, herr, hw⟩ | ⟨-, -, hw⟩ | ⟨-, hw⟩ :=
    memWrite_cases a w s <;> rw [hw] at h <;> simp at h
  · subst h
    simpa [Machine.answered] using Keeps.access s s.outstanding 1 (Memory.wf_writeWord s.mem s.params.endian a w)
  · subst h
    simpa [Machine.answered] using
      Keeps.access s (s.outstanding ++ [{ addr := a, word := w }]) 1 id
  · subst h
    exact (Keeps.answered s).bridge ((answer_eq_error_iff_failsAt s).1 herr)

theorem Keeps.of_finishCall {s t : State} (h : finishCall s = .next t) : Keeps s t := by
  obtain hend | ⟨n, hfail, hend⟩ := finishCall_ends s <;> rw [hend] at h <;> simp at h <;> subst h
  · exact .completed s
  · exact (Keeps.access s s.outstanding (n + 1) (wf_performed _ _ s.mem)).bridge hfail

theorem Keeps.of_execAdv {s t : State} (h : execAdv s = .next t) : Keeps s t := by
  have hrow : Keeps s (nextRow s) := .put s s.acc _ s.ret
  obtain ⟨-, hadv⟩ | ⟨-, -, hadv⟩ | ⟨-, -, hadv⟩ := execAdv_cases s <;> rw [hadv] at h
  · obtain rfl : nextPixel s = t := Host.Outcome.next.inj h
    exact .put s s.acc _ s.ret
  · obtain rfl : rowStart (nextRow s) = t := Host.Outcome.next.inj h
    exact hrow.trans (.put _ _ _ _)
  · exact hrow.trans (.of_finishCall h)

theorem Keeps.of_execLdvu {s t : State} (h : execLdvu s = .next t) : Keeps s t := by
  unfold execLdvu at h
  split at h
  case isTrue =>
    refine .of_memRead h fun b hv => ?_
    refine (Keeps.put (Machine.answered s) _ s.pos s.ret).trans (.of_memRead hv fun c hu => ?_)
    obtain rfl := Host.Outcome.next.inj hu
    exact .put _ _ _ _
  case isFalse =>
    obtain rfl := Host.Outcome.next.inj h
    exact .refl s

/-- Every micro-operation, from every state. -/
theorem keeps_of_exec {i : Instr} {s t : State} (hi : i.isHost = false) (h : exec i s = .next t) :
    Keeps s t := by
  cases i
  case ldy =>
    refine .of_memRead h fun b hy => ?_
    obtain rfl := Host.Outcome.next.inj hy
    exact .put _ _ _ _
  case ldvu => exact .of_execLdvu h
  case stw => exact .of_memWrite h
  case adv => exact .of_execAdv h
  case finish => exact .of_finishCall h
  case check | init | rowstart | ped | bias | matr | matg | matb | descale | clamp | pack =>
    obtain rfl := Host.Outcome.next.inj h
    exact .put s _ _ _
  all_goals simp [Instr.isHost] at hi

theorem keeps_of_pixelStep {s t : State} (h : pixelStep s = .next t) : Keeps s t := by
  refine runSequence_keeps (Keeps s) pixelSequence (fun i hi u v hu hv => ?_) s t (.refl s) h
  have huop : ∀ j ∈ pixelSequence, j.isHost = false := by decide
  exact hu.trans (keeps_of_exec (huop i hi) hv)

theorem keeps_of_memoryTurn {s t : State} (h : memoryTurn s = .next t) : Keeps s t := by
  unfold memoryTurn at h
  split at h
  case h_1 =>
    obtain rfl := Host.Outcome.next.inj h
    exact .refl s
  case h_2 p ps _ =>
    split at h <;> obtain rfl := Host.Outcome.next.inj h
    case h_1 herr => exact (Keeps.answered s).bridge ((answer_eq_error_iff_failsAt s).1 herr)
    case h_2 => exact .answered s
    case h_3 =>
      simpa [Machine.answered] using
        Keeps.access s ps 1 (Memory.wf_writeWord s.mem s.params.endian p.addr p.word)

theorem keeps_of_sequencerTurn {s t : State} (h : sequencerTurn s = .next t) : Keeps s t := by
  unfold sequencerTurn at h
  split at h
  · exact keeps_of_pixelStep h
  · obtain rfl := Host.Outcome.next.inj h
    exact .refl s

/-! ### The host's accesses to memory -/

section HostAccess

variable {s t : State} {a : Nat} {b : Byte}

/-- A host store that is done: not to a view of a running call. -/
theorem hostStore_next (h : hostStore a b s = .next t) :
    ¬ (s.status.busy = true ∧ (inInputView s a = true ∨ inOutputView s a = true)) ∧
      t = { s with mem := s.mem.write a b } := by
  unfold hostStore at h
  split at h
  case isTrue => simp at h
  case isFalse hview =>
    split at h
    · exact ⟨by simpa using hview, (Host.Outcome.next.inj h).symm⟩
    · simp at h

theorem hostLoad_next (h : hostLoad a s = .next t) : ∃ v, t = { s with ret := v } := by
  unfold hostLoad at h
  split at h
  · simp at h
  · split at h
    · exact ⟨_, (Host.Outcome.next.inj h).symm⟩
    · simp at h

end HostAccess

/-! ### What a host transaction can do -/

/-- A base register takes at most `AW` bits. -/
theorem slotAddress_lt (s : State) (d : DWord) : (slotAddress s d).toNat < 2 ^ s.params.aw :=
  calc (slotAddress s d).toNat ≤ d.toNat % 2 ^ s.params.aw := by
        rw [slotAddress, BitVec.toNat_ofNat]
        exact Nat.mod_le _ _
    _ < 2 ^ s.params.aw := Nat.mod_lt _ (Nat.two_pow_pos _)

/-- An operand write either is ignored or updates the registers of an idle block. -/
theorem unlessBusy_next {r : OperandRegs} {s t : State} (h : unlessBusy r s = .next t) :
    t = s ∨ (s.status.busy = false ∧ t = { s with regs := r }) := by
  cases hbusy : s.status.busy with
  | true =>
    rw [unlessBusy_of_busy hbusy] at h
    exact .inl (Host.Outcome.next.inj h).symm
  | false =>
    rw [unlessBusy_of_idle hbusy] at h
    exact .inr ⟨rfl, (Host.Outcome.next.inj h).symm⟩

/-- The two effects of a `CONVERT` on an idle block: the call starts, or `CHECK` refuses it. -/
def ConvertEffect (s t : State) : Prop :=
  (validOperands s ∧ viewsDisjoint s = true ∧ t = startedCall s) ∨
  (¬ validOperands s ∧ t = raiseError (checkCode s) s)

/-- The whole effect of a host operation: a value returned, a register update of an idle block that
keeps the bases in their width, or a `CONVERT` on an idle block. -/
def HostEffect (i : Instr) (s t : State) : Prop :=
  (∃ v, t = { s with ret := v }) ∨
  (s.status.busy = false ∧ (basesBounded s → basesBounded t) ∧ ∃ r, t = { s with regs := r }) ∨
  (s.status.busy = false ∧ (∃ r, i = .convert r) ∧ ConvertEffect s t)

theorem HostEffect.none (i : Instr) (s : State) : HostEffect i s s := .inl ⟨s.ret, rfl⟩

theorem HostEffect.of_unlessBusy {i : Instr} {r : OperandRegs} {s t : State}
    (h : unlessBusy r s = .next t)
    (hr : basesBounded s → r.yuvBase.toNat < 2 ^ s.params.aw ∧ r.rgbBase.toNat < 2 ^ s.params.aw) :
    HostEffect i s t := by
  obtain rfl | ⟨hidle, rfl⟩ := unlessBusy_next h
  · exact .none i t
  · exact .inr (.inl ⟨hidle, hr, r, rfl⟩)

theorem HostEffect.of_execConvert {r : BitVec 63} {s t : State} (h : execConvert s = .next t) :
    HostEffect (.convert r) s t := by
  obtain ⟨-, hc⟩ | ⟨hidle, hcode, hc⟩ | ⟨hidle, hcode, hdisjoint, hc⟩ | ⟨-, -, -, hc⟩ :=
    execConvert_cases s <;> rw [hc] at h <;> simp at h <;> subst h
  · exact .none _ s
  · exact .inr (.inr ⟨hidle, ⟨r, rfl⟩, .inr ⟨mt checkCode_of_validOperands hcode, rfl⟩⟩)
  · exact .inr (.inr ⟨hidle, ⟨r, rfl⟩,
      .inl ⟨validOperands_of_checkCode_eq_zero hcode, hdisjoint, rfl⟩⟩)

/-- Every host operation, from every state. -/
theorem hostEffect_of_exec {i : Instr} {s t : State} (hi : i.isHost = true) (h : exec i s = .next t) :
    HostEffect i s t := by
  cases i
  case wrregWidth | wrregHeight | wrregYuvLen | wrregRgbCap => exact .of_unlessBusy h id
  case wrregYuvBase d =>
    refine .of_unlessBusy h fun hb => ⟨slotAddress_lt s d, hb.2⟩
  case wrregRgbBase d =>
    refine .of_unlessBusy h fun hb => ⟨hb.1, slotAddress_lt s d⟩
  case convert => exact .of_execConvert h
  case rdregWidth | rdregHeight | rdregYuvBase | rdregYuvLen | rdregRgbBase | rdregRgbCap | rdregCtrl |
      rdregStatus =>
    exact .inl ⟨_, (Host.Outcome.next.inj h).symm⟩
  case nopcmd | wrstatus =>
    obtain rfl := Host.Outcome.next.inj h
    exact .none _ _
  all_goals simp [Instr.isHost] at hi

/-- What no host operation touches. -/
theorem HostEffect.frame {i : Instr} {s t : State} (h : HostEffect i s t) :
    t.mem = s.mem ∧ t.outstanding = s.outstanding ∧ t.params = s.params ∧ t.bench = s.bench ∧
    t.inputs = s.inputs ∧ t.acc = s.acc := by
  obtain ⟨v, rfl⟩ | ⟨-, -, r, rfl⟩ | ⟨-, -, ⟨-, -, rfl⟩ | ⟨-, rfl⟩⟩ := h
  all_goals exact ⟨rfl, rfl, rfl, rfl, rfl, rfl⟩

/-- While `BUSY = 1` a host operation returns a value at most (10_state.md R20). -/
theorem HostEffect.of_busy {i : Instr} {s t : State} (h : HostEffect i s t)
    (hbusy : s.status.busy = true) : ∃ v, t = { s with ret := v } := by
  obtain hret | ⟨hidle, -⟩ | ⟨hidle, -⟩ := h
  · exact hret
  all_goals simp [hbusy] at hidle

/-- `STATUS` after a host operation: as it was, or the start or the refusal of a `CONVERT`. -/
theorem HostEffect.status {i : Instr} {s t : State} (h : HostEffect i s t) :
    t.status = s.status ∨ (s.status.busy = false ∧ (∃ r, i = .convert r) ∧
      (t.status = statusBusy ∨ t.status = statusError 1#3 ∨ t.status = statusError 2#3 ∨
        t.status = statusError 3#3 ∨ t.status = statusError 4#3)) := by
  obtain ⟨v, rfl⟩ | ⟨-, -, r, rfl⟩ | ⟨hidle, hi, ⟨-, -, rfl⟩ | ⟨hbad, rfl⟩⟩ := h
  · exact .inl rfl
  · exact .inl rfl
  · exact .inr ⟨hidle, hi, .inl rfl⟩
  · refine .inr ⟨hidle, hi, .inr ?_⟩
    obtain h0 | h1 | h2 | h3 | h4 := checkCode_cases s
    · exact absurd (validOperands_of_checkCode_eq_zero h0) hbad
    all_goals simp [*]

/-! ### The step -/

/-- The state a step works on: the bench's code or else the first input is taken. -/
def taken (s : State) : State :=
  { s with bench := none, inputs := if s.bench = none then s.inputs.tail else s.inputs }

/-- With an empty bench only the inputs differ. -/
theorem taken_of_bench_none {s : State} (hbench : s.bench = none) :
    taken s = { s with inputs := s.inputs.tail } := by
  rw [taken, if_pos hbench, ← hbench]

/-- The move a step makes on an empty bench: the first input, and a turn of the sequencer where there
is none. -/
def nextInput (s : State) : Input := s.inputs.head?.getD .turn

/-- A move other than a turn of the sequencer is listed first. -/
theorem head?_of_nextInput {s : State} {e : Input} (he : nextInput s = e) (hturn : e ≠ .turn) :
    s.inputs.head? = some e := by
  rw [nextInput] at he
  cases hhead : s.inputs.head? with
  | none => exact absurd (by simpa [hhead] using he.symm) hturn
  | some d => simpa [hhead] using he

theorem step_of_bench_none {s : State} (hbench : s.bench = none) :
    step s = takeInput (nextInput s) (taken s) := by
  rw [taken_of_bench_none hbench, nextInput]
  obtain ⟨c, hc, -⟩ | ⟨-, hnil, hstep⟩ | ⟨-, e, es, hcons, hstep⟩ := step_cases s
  · simp [hbench] at hc
  · have hsame : { s with inputs := s.inputs.tail } = s := by rw [hnil, List.tail_nil, ← hnil]
    rw [hstep, hsame, hnil]
    rfl
  · rw [hstep, hcons]
    rfl

/-- The three kinds of step, from every state. -/
theorem step_kinds {s t : State} (h : step s = .next t) :
    Keeps (taken s) t ∨
    (s.bench = none ∧ ∃ x, s.inputs.head? = some (.transaction x) ∧
      HostEffect (decodeTransaction x) (taken s) t) ∨
    (s.bench = none ∧ s.inputs.head? = some .reset ∧ t = resetTurn (taken s)) := by
  cases hbench : s.bench with
  | some c =>
    have htaken : taken s = { s with bench := none } := by simp [taken, hbench]
    obtain ⟨d, -, hstep⟩ | ⟨hnone, -⟩ | ⟨hnone, -⟩ := step_cases s
    · rw [hstep, ← htaken] at h
      have huop : ∀ c : UopCode, (decodeUop c).isHost = false := by decide
      exact .inl (keeps_of_exec (huop d) h)
    all_goals simp [hbench] at hnone
  | none =>
    rw [step_of_bench_none hbench] at h
    cases he : nextInput s with
    | turn =>
      rw [he] at h
      exact .inl (keeps_of_sequencerTurn h)
    | memAnswer =>
      rw [he] at h
      exact .inl (keeps_of_memoryTurn h)
    | hostStore a b =>
      rw [he] at h
      obtain ⟨-, rfl⟩ := hostStore_next h
      exact .inl (.access (taken s) _ 0 (Memory.wf_write _ a b))
    | hostLoad a =>
      rw [he] at h
      obtain ⟨v, rfl⟩ := hostLoad_next h
      exact .inl (.put (taken s) _ _ v)
    | transaction x =>
      rw [he] at h
      refine .inr (.inl ⟨rfl, x, ?_, hostEffect_of_exec (decodeTransaction_isHost x) h⟩)
      exact head?_of_nextInput he (by simp)
    | reset =>
      rw [he] at h
      refine .inr (.inr ⟨rfl, ?_, (Host.Outcome.next.inj h).symm⟩)
      exact head?_of_nextInput he (by simp)

end Sys2Proof.Machine

/-! PROOFS. The rules of one step that hold from every state, the moves of the outside one by one, and
reset (00_scope.md R5, R6, 10_state.md R13, R18, R20, R27, R30, 20_memory.md R40, R53,
60_exceptions.md R139, 70_reset_and_hazards.md R155, R157). -/

namespace Sys2Proof.Machine

/-! ### What every step keeps -/

/-- Settles O8: no move of any kind touches the bench or the inputs, so what was taken is all that is
gone. -/
theorem stepConsumesOneInput : Obligations.StepConsumesOneInput := by
  intro s t h
  have hframe : t.bench = none ∧ t.inputs = (taken s).inputs := by
    obtain hk | ⟨-, x, -, hx⟩ | ⟨-, -, rfl⟩ := step_kinds h
    · exact ⟨hk.bench, hk.inputs⟩
    · obtain ⟨-, -, -, hbench, hinputs, -⟩ := hx.frame
      exact ⟨hbench, hinputs⟩
    · exact ⟨rfl, rfl⟩
  obtain ⟨hbench, hinputs⟩ := hframe
  exact ⟨hbench, fun hnone => hinputs.trans (if_pos hnone), fun hsome => hinputs.trans (if_neg hsome)⟩

/-- Reset keeps the canonical form, whatever the free bytes are. -/
theorem resetTurn_wf {s : State} (hs : s.mem.wf = true) : (resetTurn s).mem.wf = true := by
  cases hbusy : s.status.busy with
  | false => rwa [resetTurn_mem_idle s hbusy]
  | true =>
    rw [resetTurn_mem_busy s hbusy]
    exact Memory.wf_unspecify _ _ _ _ hs

/-- Settles O50: memory changes by writes and free bytes only, which keep its form. -/
theorem stepKeepsMemoryCanonical : Obligations.StepKeepsMemoryCanonical := by
  intro s t hs h
  obtain hk | ⟨-, x, -, hx⟩ | ⟨-, -, rfl⟩ := step_kinds h
  · exact hk.wf hs
  · rw [hx.frame.1]
    exact hs
  · exact resetTurn_wf hs

/-- Settles O51: `STATUS` stays, or takes one of the values of a start, a completion, an error or
reset. -/
theorem stepKeepsStatusLegal : Obligations.StepKeepsStatusLegal := by
  intro s t hs h
  obtain hk | ⟨-, x, -, hx⟩ | ⟨-, -, rfl⟩ := step_kinds h
  · obtain hsame | hdone | ⟨hbridge, -⟩ := hk.status
    · rw [hsame]
      exact hs
    · rw [hdone]
      decide
    · rw [hbridge]
      decide
  · obtain hsame | ⟨-, -, hnew⟩ := hx.status
    · rw [hsame]
      exact hs
    · obtain hnew | hnew | hnew | hnew | hnew := hnew <;> rw [hnew] <;> decide
  · exact (by decide : statusLegal resetStatus = true)

/-- Settles O52: the parameters are in the frame of every kind of move. -/
theorem stepKeepsTheParameters : Obligations.StepKeepsTheParameters := by
  intro s t h
  obtain hk | ⟨-, x, -, hx⟩ | ⟨-, -, rfl⟩ := step_kinds h
  · exact hk.params
  · obtain ⟨-, -, hparams, -⟩ := hx.frame
    exact hparams
  · rfl

theorem basesBounded_congr {s t : State} (hregs : t.regs = s.regs) (hparams : t.params = s.params)
    (hs : basesBounded s) : basesBounded t := by
  rw [basesBounded, hregs, hparams]
  exact hs

/-- Settles O59: only an operand write or reset changes a base register, the one to at most `AW` bits,
the other to 0. -/
theorem stepKeepsTheBasesInTheirWidth : Obligations.StepKeepsTheBasesInTheirWidth := by
  intro s t hs h
  have htaken : basesBounded (taken s) := hs
  obtain hk | ⟨-, x, -, hx⟩ | ⟨-, -, rfl⟩ := step_kinds h
  · exact basesBounded_congr hk.regs hk.params htaken
  · obtain ⟨v, rfl⟩ | ⟨-, hbounded, -⟩ | ⟨-, -, ⟨-, -, rfl⟩ | ⟨-, rfl⟩⟩ := hx
    · exact hs
    · exact hbounded htaken
    · exact hs
    · exact hs
  · exact ⟨Nat.two_pow_pos _, Nat.two_pow_pos _⟩

/-- Settles O38: the code 5 comes from a failing access alone, and `CHECK` has no such code. -/
theorem noBridgeFailureWithoutMemCanFail : Obligations.NoBridgeFailureWithoutMemCanFail := by
  intro s t hcannot hs h
  obtain hk | ⟨-, x, -, hx⟩ | ⟨-, -, rfl⟩ := step_kinds h
  · obtain hsame | hdone | ⟨-, hcan, -⟩ := hk.status
    · rw [hsame]
      exact hs
    · rw [hdone]
      decide
    · exact absurd (hcan.symm.trans hcannot) (by decide)
  · obtain hsame | ⟨-, -, hnew⟩ := hx.status
    · rw [hsame]
      exact hs
    · obtain hnew | hnew | hnew | hnew | hnew := hnew <;> rw [hnew] <;> decide
  · exact (by decide : resetStatus.ecode ≠ 5#3)

/-- Settles O39: micro-operations never write the operand registers, and a host operation does so on an
idle block only. -/
theorem operandsLockedDuringACall : Obligations.OperandsLockedDuringACall := by
  intro s t hbusy hreset h
  obtain hk | ⟨-, x, -, hx⟩ | ⟨-, hhead, -⟩ := step_kinds h
  · exact hk.regs
  · obtain ⟨v, rfl⟩ := hx.of_busy hbusy
    rfl
  · exact absurd hhead hreset

/-! ### The moves, one by one -/

/-- Settles O6: the decoder and the step read the same operation. -/
theorem stepRunsTheDecodedOperation : Obligations.StepRunsTheDecodedOperation := by
  refine fun s i => ⟨fun x rest hbench hinputs hdecode => ?_, fun c hbench hdecode => ?_⟩
  · obtain rfl : decodeTransaction x = i := by simpa using hdecode
    refine ⟨decodeTransaction_isHost x, ?_⟩
    rw [step_of_bench_none hbench, taken_of_bench_none hbench, nextInput, hinputs]
    rfl
  · obtain rfl : decodeUop c = i := by simpa using hdecode
    have huop : ∀ c : UopCode, (decodeUop c).isHost = false := by decide
    refine ⟨huop c, ?_⟩
    rw [step, benchOrMove, hbench]
    rfl

section Moves

variable {s : State} (hbench : s.bench = none)
include hbench

/-- A step with an input listed makes that move on the state with the input taken. -/
theorem step_of_cons {e : Input} {rest : List Input} (hinputs : s.inputs = e :: rest) :
    step s = takeInput e { s with inputs := rest } := by
  rw [step_of_bench_none hbench, taken_of_bench_none hbench, nextInput, hinputs]
  rfl

/-- A step with no input listed is a turn of the sequencer. -/
theorem step_of_nil (hinputs : s.inputs = []) : step s = sequencerTurn s := by
  have hsame : { s with inputs := s.inputs.tail } = s := by rw [hinputs, List.tail_nil, ← hinputs]
  rw [step_of_bench_none hbench, taken_of_bench_none hbench, hsame, nextInput, hinputs]
  rfl

end Moves

theorem sequencerTurn_of_busy {s : State} (hbusy : s.status.busy = true) :
    sequencerTurn s = pixelStep s := if_pos hbusy

theorem sequencerTurn_of_idle {s : State} (hidle : s.status.busy = false) :
    sequencerTurn s = .next s := by
  simp [sequencerTurn, hidle]

/-- Settles O7: the turn of the sequencer, taken with no input or when one is listed. -/
theorem sequencerStepsExactlyWhileBusy : Obligations.SequencerStepsExactlyWhileBusy := fun _ hbench =>
  ⟨fun hnil hbusy => (step_of_nil hbench hnil).trans (sequencerTurn_of_busy hbusy),
    fun hnil hidle => (step_of_nil hbench hnil).trans (sequencerTurn_of_idle hidle),
    fun _ hturn hbusy => (step_of_cons hbench hturn).trans (sequencerTurn_of_busy hbusy),
    fun _ hturn hidle => (step_of_cons hbench hturn).trans (sequencerTurn_of_idle hidle)⟩

section HostMemory

variable {s : State} {a : Nat} {b : Byte}

theorem hostStore_of_view (hbusy : s.status.busy = true)
    (hview : inInputView s a = true ∨ inOutputView s a = true) :
    hostStore a b s = .refused .hostBreaksCall :=
  if_pos (by simpa [hbusy] using hview)

theorem hostLoad_of_view (hbusy : s.status.busy = true) (hview : inOutputView s a = true) :
    hostLoad a s = .refused .hostBreaksCall :=
  if_pos (by simpa [hbusy] using hview)

theorem hostStore_of_free
    (hfree : s.status.busy = false ∨ (inInputView s a = false ∧ inOutputView s a = false)) :
    hostStore a b s = if a < 2 ^ s.params.aw then .next { s with mem := s.mem.write a b }
      else .fault .noSuchAddress := by
  obtain hidle | ⟨hin, hout⟩ := hfree
  · simp [hostStore, hidle]
  · simp [hostStore, hin, hout]

theorem hostLoad_of_free (hfree : s.status.busy = false ∨ inOutputView s a = false) :
    hostLoad a s = if a < 2 ^ s.params.aw then .next { s with ret := (s.mem.read a).setWidth 64 }
      else .fault .noSuchAddress := by
  obtain hidle | hout := hfree
  · simp [hostLoad, hidle]
  · simp [hostLoad, hout]

end HostMemory

/-- Settles O46: a host access is refused in a view of a running call, and done elsewhere. -/
theorem hostAccessesDuringACall : Obligations.HostAccessesDuringACall := by
  intro s a b rest hbench
  refine ⟨fun hinputs => ?_, fun hinputs => ?_⟩
  · have hstep : step s = hostStore a b { s with inputs := rest } := step_of_cons hbench hinputs
    refine ⟨fun hbusy hview => hstep.trans (hostStore_of_view hbusy hview), fun hfree ha => ?_⟩
    refine ⟨{ s with inputs := rest, mem := s.mem.write a b },
      hstep.trans ((hostStore_of_free (s := { s with inputs := rest }) hfree).trans (if_pos ha)), rfl,
      ?_, fun c hc => ?_⟩
    · exact (Memory.read_write s.mem a b a).trans (if_pos rfl)
    · exact (Memory.read_write s.mem a b c).trans (if_neg hc)
  · have hstep : step s = hostLoad a { s with inputs := rest } := step_of_cons hbench hinputs
    exact ⟨fun hbusy hview => hstep.trans (hostLoad_of_view hbusy hview),
      fun hfree ha =>
        hstep.trans ((hostLoad_of_free (s := { s with inputs := rest }) hfree).trans (if_pos ha))⟩

/-- Settles O60: each access at an address that does not exist, and the misaligned store. -/
theorem accessesNoCallMakesFault : Obligations.AccessesNoCallMakesFault := by
  intro s
  refine ⟨exec_ldy_of_le, exec_ldvu_of_firstMissing, exec_ldvu_of_secondMissing, exec_stw_of_misaligned,
    exec_stw_of_lt, fun a rest hbench ha hfree haccess => ?_⟩
  obtain ⟨b, hinputs⟩ | hinputs := haccess
  · have hstore := hostStore_of_free (s := { s with inputs := rest }) (b := b) hfree
    exact (step_of_cons hbench hinputs).trans (hstore.trans (if_neg ha.not_gt))
  · have hload := hostLoad_of_free (s := { s with inputs := rest }) (hfree.imp_right And.right)
    exact (step_of_cons hbench hinputs).trans (hload.trans (if_neg ha.not_gt))

section MemoryTurn

variable {s : State}

theorem memoryTurn_of_nil (hnone : s.outstanding = []) : memoryTurn s = .next s := by
  simp [memoryTurn, hnone]

variable {p : Posted} {ps : List Posted} (hcons : s.outstanding = p :: ps)
include hcons

theorem memoryTurn_of_error (herr : answer s = .error) :
    memoryTurn s = .next (raiseBridge (answered s)) := by
  simp [memoryTurn, hcons, herr]

theorem memoryTurn_of_later (hlater : answer s = .later) : memoryTurn s = .next (answered s) := by
  simp [memoryTurn, hcons, hlater]

/-- The state once the oldest outstanding write has been performed. -/
def oldestPerformed (s : State) (p : Posted) (ps : List Posted) : State :=
  { answered s with mem := s.mem.writeWord s.params.endian p.addr p.word, outstanding := ps }

theorem memoryTurn_of_ok (hok : answer s = .ok) : memoryTurn s = .next (oldestPerformed s p ps) := by
  simp [memoryTurn, hcons, hok, oldestPerformed]

end MemoryTurn

/-- Settles O58: the three answers to the oldest outstanding write. -/
theorem memoryAnswersTheOldestOutstandingWrite : Obligations.MemoryAnswersTheOldestOutstandingWrite := by
  intro s rest hbench hinputs
  have hstep : step s = memoryTurn { s with inputs := rest } := step_of_cons hbench hinputs
  refine ⟨fun hnone => hstep.trans (memoryTurn_of_nil hnone), fun p ps hcons =>
    ⟨fun hfail => ?_, fun hok => ?_, fun hlater => hstep.trans (memoryTurn_of_later hcons hlater)⟩⟩
  · have herr : answer { s with inputs := rest } = .error := (answer_eq_error_iff_failsAt s).2 hfail
    exact ⟨_, hstep.trans (memoryTurn_of_error hcons herr), bridgeEnding_raiseBridge _ _ _⟩
  · exact ⟨_, hstep.trans (memoryTurn_of_ok hcons hok), rfl, writeWord_bytes _ _ _ _⟩

/-! ### Reset -/

theorem statusWord_resetStatus : statusWord resetStatus = 0x00#64 := by decide

/-- Settles O49: the state of reset, and the free bytes in the output words of a call under way. -/
theorem resetAtAnyTime : Obligations.ResetAtAnyTime := by
  intro s rest hbench hinputs
  refine ⟨resetTurn { s with inputs := rest }, step_of_cons hbench hinputs, rfl, statusWord_resetStatus,
    rfl, rfl, rfl, fun hidle => resetTurn_mem_idle _ hidle, fun hbusy a ha => ?_, fun hbusy a ha => ?_⟩
  · rw [resetTurn_mem_busy { s with inputs := rest } hbusy, Memory.read_unspecify]
    exact if_neg ha
  · rw [resetTurn_mem_busy { s with inputs := rest } hbusy, Memory.read_unspecify]
    exact if_pos ha

/-- Settles O47: an idle state with nothing outstanding meets the invariants of a call. -/
theorem resetStateMeetsTheInvariants : Obligations.ResetStateMeetsTheInvariants := by
  have hidle : State.reset.status.busy ≠ true := Bool.false_ne_true
  exact ⟨rfl, statusWord_resetStatus, rfl, rfl, reset_mem_wf, ⟨Nat.two_pow_pos _, Nat.two_pow_pos _⟩, by decide,
    ⟨fun _ => rfl, fun hbusy => absurd hbusy hidle⟩, fun hbusy => absurd hbusy hidle,
    fun hbusy => absurd hbusy hidle⟩

end Sys2Proof.Machine

/-! PROOFS. The pixel step of a running call: what the invariant says of its addresses, and the one list
of what the step can come to (41_converter_command.md R87, 42_traversal_and_fetch.md R101 to R110). -/

namespace Sys2Proof.Machine

/-! ### A running call -/

/-- The busy half of `callInv`, with names for its clauses. -/
structure RunningCall (s : State) : Prop where
  busy : s.status.busy = true
  valid : validOperands s
  disjoint : viewsDisjoint s = true
  fs : s.pos.fs.toNat = frameSize s
  row : s.pos.i.toNat < s.regs.height.toNat
  column : s.pos.x.toNat < s.regs.width.toNat
  yp : s.pos.yp.toNat = s.pos.i.toNat * s.regs.width.toNat + s.pos.x.toNat
  uvp : s.pos.uvp.toNat = frameSize s + s.pos.i.toNat / 2 * s.regs.width.toNat
    + 2 * ((s.pos.x.toNat + 1) / 2)
  posted : s.outstanding.all (postedBefore s) = true

theorem runningCall_of_callInv {s : State} (hinv : callInv s) (hbusy : s.status.busy = true) :
    RunningCall s := by
  obtain ⟨hvalid, hdisjoint, hfs, hrow, hcolumn, hyp, huvp, hposted⟩ := hinv.2 hbusy
  exact ⟨hbusy, hvalid, hdisjoint, hfs, hrow, hcolumn, hyp, huvp, hposted⟩

theorem callInv_of_idle {s : State} (hidle : s.status.busy = false) (hnone : s.outstanding = []) :
    callInv s :=
  ⟨fun _ => hnone, fun hbusy => absurd (hbusy.symm.trans hidle) (by decide)⟩

theorem frameSize_congr {s t : State} (hregs : t.regs = s.regs) : frameSize t = frameSize s := by
  rw [frameSize, hregs, frameSize]

theorem outputAddress_congr {s t : State} (hregs : t.regs = s.regs) (hyp : t.pos.yp = s.pos.yp) :
    outputAddress t = outputAddress s := by
  rw [outputAddress, hregs, hyp, outputAddress]

theorem validOperands_congr {s t : State} (hregs : t.regs = s.regs) (hparams : t.params = s.params)
    (hs : validOperands s) : validOperands t := by
  rw [validOperands, nullBase, badDimension, badLength, badAddress, hregs, hparams]
  exact hs

theorem viewsDisjoint_congr {s t : State} (hregs : t.regs = s.regs) :
    viewsDisjoint t = viewsDisjoint s := by
  rw [viewsDisjoint, hregs, viewsDisjoint]

namespace RunningCall

variable {s : State} (hc : RunningCall s)
include hc

theorem callInv : Machine.callInv s :=
  ⟨fun hidle => absurd (hidle.symm.trans hc.busy) (by decide), fun _ =>
    ⟨hc.valid, hc.disjoint, hc.fs, hc.row, hc.column, hc.yp, hc.uvp, hc.posted⟩⟩

/-! What `CHECK` has accepted (41_converter_command.md R87). -/

theorem dimension : ¬ badDimension s := hc.valid.2.1

theorem yuvLen : s.regs.yuvLen.toNat = frameSize s + frameSize s / 2 := by
  rw [add_half_eq_mul_three_half]
  exact not_not.1 (not_or.1 hc.valid.2.2.1).1

theorem rgbCap : s.regs.rgbCap.toNat = frameSize s := not_not.1 (not_or.1 hc.valid.2.2.1).2

theorem addresses : s.regs.rgbBase.toNat % 4 = 0 ∧
    s.regs.yuvBase.toNat + (frameSize s + frameSize s / 2) ≤ 2 ^ s.params.aw ∧
    s.regs.rgbBase.toNat + 4 * frameSize s ≤ 2 ^ s.params.aw := by
  obtain ⟨-, -, -, haddr⟩ := hc.valid
  rw [badAddress, hc.yuvLen, hc.rgbCap] at haddr
  omega

/-! Where the pixel and its pair lie. -/

/-- The pixels of the rows above and of this row up to the pixel are pixels of the frame. -/
theorem yp_lt : s.pos.yp.toNat < frameSize s := by
  have hrows : (s.pos.i.toNat + 1) * s.regs.width.toNat ≤ s.regs.height.toNat * s.regs.width.toNat :=
    Nat.mul_le_mul_right _ hc.row
  have hcolumn := hc.column
  rw [Nat.add_mul, Nat.one_mul] at hrows
  rw [hc.yp, frameSize, Nat.mul_comm s.regs.width.toNat]
  omega

theorem lumaAddress_lt : lumaAddress s < 2 ^ s.params.aw := by
  obtain ⟨-, hyuv, -⟩ := hc.addresses
  have hyp := hc.yp_lt
  rw [lumaAddress]
  omega

/-- The pair of this pixel (42_traversal_and_fetch.md R110). -/
theorem chromaIndex_lt :
    chromaIndex s s.pos.i.toNat s.pos.x.toNat + 1 < frameSize s + frameSize s / 2 :=
  Machine.chromaIndex_lt hc.dimension hc.row hc.column

theorem uvp_of_even (hx : s.pos.x.toNat % 2 = 0) :
    s.pos.uvp.toNat = chromaIndex s s.pos.i.toNat s.pos.x.toNat := by
  rw [hc.uvp, chromaIndex]
  omega

/-- At odd `X` the cursor has passed the pair. -/
theorem uvp_of_odd (hx : s.pos.x.toNat % 2 = 1) :
    s.pos.uvp.toNat = chromaIndex s s.pos.i.toNat s.pos.x.toNat + 2 := by
  rw [hc.uvp, chromaIndex]
  omega

theorem chromaAddress_lt (hx : s.pos.x.toNat % 2 = 0) : chromaAddress s + 1 < 2 ^ s.params.aw := by
  obtain ⟨-, hyuv, -⟩ := hc.addresses
  have hpair := hc.chromaIndex_lt
  rw [chromaAddress, hc.uvp_of_even hx]
  omega

/-- The cursor past the pair does not leave its 64 bits, since `YUV_LEN` has 64. -/
theorem uvp_add_two_of_even (hx : s.pos.x.toNat % 2 = 0) :
    (s.pos.uvp + 2#64).toNat = chromaIndex s s.pos.i.toNat s.pos.x.toNat + 2 := by
  have hlen : s.regs.yuvLen.toNat < 2 ^ 64 := s.regs.yuvLen.isLt
  have hpair := hc.chromaIndex_lt
  rw [hc.yuvLen] at hlen
  rw [BitVec.toNat_add, hc.uvp_of_even hx, BitVec.toNat_ofNat]
  omega

theorem outputAddress_aligned : outputAddress s % 4 = 0 := by
  obtain ⟨halign, -, -⟩ := hc.addresses
  rw [outputAddress]
  omega

theorem outputAddress_le : outputAddress s + 4 ≤ s.regs.rgbBase.toNat + 4 * frameSize s := by
  have hyp := hc.yp_lt
  rw [outputAddress]
  omega

theorem outputAddress_le_top : outputAddress s + 4 ≤ 2 ^ s.params.aw :=
  hc.outputAddress_le.trans hc.addresses.2.2

/-- An outstanding write is of a word below this pixel's. -/
theorem posted_bounds {p : Posted} (hp : p ∈ s.outstanding) :
    s.regs.rgbBase.toNat ≤ p.addr ∧ p.addr + 4 ≤ outputAddress s := by
  have hbefore := List.all_eq_true.1 hc.posted p hp
  simp only [postedBefore, Bool.and_eq_true, decide_eq_true_eq] at hbefore
  exact ⟨hbefore.1.1, hbefore.2⟩

/-- The closed form of this pixel, by its row and column. -/
theorem convertWord_yp : convertWord s s.pos.yp.toNat =
    pixelWord (inputByte s s.pos.yp.toNat)
      (inputByte s (chromaIndex s s.pos.i.toNat s.pos.x.toNat + 1))
      (inputByte s (chromaIndex s s.pos.i.toNat s.pos.x.toNat)) := by
  have hdiv : s.pos.yp.toNat / s.regs.width.toNat = s.pos.i.toNat := by
    rw [hc.yp, Nat.mul_comm, Nat.mul_add_div (Nat.zero_lt_of_lt hc.column),
      Nat.div_eq_of_lt hc.column, Nat.add_zero]
  have hmod : s.pos.yp.toNat % s.regs.width.toNat = s.pos.x.toNat := by
    rw [hc.yp, Nat.mul_comm, Nat.mul_add_mod, Nat.mod_eq_of_lt hc.column]
  rw [convertWord_eq, hdiv, hmod]

/-- The next position is of a pixel of the frame in the same row, the next row, or the end. -/
theorem position_cases :
    s.pos.x.toNat + 1 < s.regs.width.toNat ∨
    (s.pos.x.toNat + 1 = s.regs.width.toNat ∧ s.pos.i.toNat + 1 < s.regs.height.toNat) ∨
    (s.pos.x.toNat + 1 = s.regs.width.toNat ∧ s.pos.i.toNat + 1 = s.regs.height.toNat) := by
  have hrow := hc.row
  have hcolumn := hc.column
  omega

theorem yp_succ : (s.pos.yp + 1#64).toNat = s.pos.yp.toNat + 1 := by
  have hframe := frameSize_lt_two_pow s
  have hyp := hc.yp_lt
  rw [BitVec.toNat_add, BitVec.toNat_ofNat]
  omega

end RunningCall

/-- Inside a row `X` does not leave its 32 bits. -/
theorem x_succ {s : State} (hx : s.pos.x.toNat + 1 < s.regs.width.toNat) :
    (s.pos.x + 1#32).toNat = s.pos.x.toNat + 1 := by
  have hwidth : s.regs.width.toNat < 2 ^ 32 := s.regs.width.isLt
  rw [BitVec.toNat_add, BitVec.toNat_ofNat]
  omega

/-- `I` leaves its 32 bits only past the last row. -/
theorem i_succ {s : State} (hi : s.pos.i.toNat + 1 ≤ s.regs.height.toNat) :
    (s.pos.i + 1#32).toNat = s.pos.i.toNat + 1 := by
  have hheight : s.regs.height.toNat < 2 ^ 32 := s.regs.height.isLt
  rw [BitVec.toNat_add, BitVec.toNat_ofNat]
  omega

/-! ### The two ends of an access -/

/-- The memory can fail and an error answer is listed. -/
abbrev errorListed (s : State) : Prop := s.params.memCanFail = true ∧ .error ∈ s.answers

theorem errorListed_of_answer {s u : State} (hparams : u.params = s.params)
    (hanswers : u.answers <:+ s.answers) (herr : answer u = .error) : errorListed s := by
  obtain ⟨hcan, hmem⟩ := error_mem_of_failsAt ((answer_eq_error_iff_failsAt u).1 herr)
  exact ⟨hparams ▸ hcan, hanswers.subset hmem⟩

/-- A pixel step or an answer of the memory that ends the call as a bridge failure. -/
structure Bridged (s t : State) : Prop where
  status : t.status = statusError codeBridge
  regs : t.regs = s.regs
  outstanding : t.outstanding = []
  outside : ∀ a, ¬ inOutputWords s a → t.mem.read a = s.mem.read a
  listed : errorListed s

/-- A bridge failure raised before any write of the step is one of the call. -/
theorem Bridged.of_raiseBridge {s u : State} (hregs : u.regs = s.regs) (hmem : u.mem = s.mem)
    (hlisted : errorListed s) : Bridged s (raiseBridge u) where
  status := rfl
  regs := hregs
  outstanding := rfl
  outside a ha := by
    have hwords := lt_or_ge_of_not_inOutputWords ha
    rw [← frameSize_congr hregs, ← hregs] at hwords
    rw [raiseBridge_read_outside u a hwords, hmem]
  listed := hlisted

/-! ### LDY and LDVU in a call -/

/-- The state once the bytes of the pixel have been read: the pair at even `X` only. -/
def fetched (s : State) : State :=
  if s.pos.x.toNat % 2 = 0 then chromaLoaded (lumaLoaded s) else lumaLoaded s

theorem fetched_of_even {s : State} (hx : s.pos.x.toNat % 2 = 0) :
    fetched s = chromaLoaded (lumaLoaded s) := if_pos hx

theorem fetched_of_odd {s : State} (hx : s.pos.x.toNat % 2 = 1) : fetched s = lumaLoaded s :=
  if_neg (by omega)

theorem fetched_status (s : State) : (fetched s).status = s.status := by
  unfold fetched
  split <;> rfl

section Fetch

variable {s : State} (hc : RunningCall s) (is : List Instr)
include hc

/-- From a running call the two fetches load the pixel's bytes, or one of their reads fails. -/
theorem runSequence_fetch :
    runSequence (.ldy :: .ldvu :: is) s = runSequence is (fetched s) ∨
    ∃ t, Bridged s t ∧ runSequence (.ldy :: .ldvu :: is) s = .next t := by
  by_cases hy : answer s = .error
  · exact .inr ⟨_, .of_raiseBridge (u := answered s) rfl rfl
      (errorListed_of_answer rfl List.suffix_rfl hy),
      runSequence_cons_idle (exec_ldy_of_error hc.lumaAddress_lt hy) rfl⟩
  rw [runSequence_cons_busy (exec_ldy_of_ok hc.lumaAddress_lt hy) hc.busy]
  obtain hx | hx := Nat.mod_two_eq_zero_or_one s.pos.x.toNat
  case inr =>
    rw [fetched_of_odd hx]
    exact .inl (runSequence_cons_busy (exec_ldvu_of_odd (s := lumaLoaded s) hx) hc.busy)
  have hpair : chromaAddress (lumaLoaded s) + 1 < 2 ^ (lumaLoaded s).params.aw := hc.chromaAddress_lt hx
  by_cases hv : answer (lumaLoaded s) = .error
  · have hlisted := errorListed_of_answer (s := s) (u := lumaLoaded s) rfl (List.tail_suffix _) hv
    exact .inr ⟨_, .of_raiseBridge (u := answered (lumaLoaded s)) rfl rfl hlisted,
      runSequence_cons_idle
        (exec_ldvu_of_firstError (s := lumaLoaded s) hx (Nat.lt_of_succ_lt hpair) hv) rfl⟩
  by_cases hu : answer (answered (lumaLoaded s)) = .error
  · have hlisted := errorListed_of_answer (s := s) (u := answered (lumaLoaded s)) rfl
      ((List.tail_suffix _).trans (List.tail_suffix _)) hu
    exact .inr ⟨_, .of_raiseBridge (u := answered (vLoaded (lumaLoaded s))) rfl rfl hlisted,
      runSequence_cons_idle (exec_ldvu_of_secondError (s := lumaLoaded s) hx hpair hv hu) rfl⟩
  · rw [fetched_of_even hx]
    exact .inl (runSequence_cons_busy (exec_ldvu_of_ok (s := lumaLoaded s) hx hpair hv hu) hc.busy)

end Fetch

/-! ### The pixel up to STW -/

/-- The state once the word of the pixel has been computed. -/
def computed (s : State) : State := { fetched s with acc := datapathAcc (fetched s).acc }

/-- What the state before `ADV` is to the state before the pixel: the word of the pixel in memory or
under way, the latch loaded, the cursor past the pair. -/
structure Visited (s v : State) : Prop where
  regs : v.regs = s.regs
  params : v.params = s.params
  status : v.status = s.status
  inputs : v.inputs = s.inputs
  bench : v.bench = s.bench
  ret : v.ret = s.ret
  answers : v.answers <:+ s.answers
  pos : v.pos = { s.pos with uvp := v.pos.uvp }
  uvp : v.pos.uvp.toNat = chromaIndex s s.pos.i.toNat s.pos.x.toNat + 2
  latch : latchInv s →
    v.acc.v = inputByte s (chromaIndex s s.pos.i.toNat s.pos.x.toNat) ∧
    v.acc.u = inputByte s (chromaIndex s s.pos.i.toNat s.pos.x.toNat + 1)
  store : ∃ w, (latchInv s → w = convertWord s s.pos.yp.toNat) ∧
    ((v.mem = s.mem.writeWord s.params.endian (outputAddress s) w ∧ v.outstanding = s.outstanding) ∨
      (s.answers ≠ [] ∧ v.mem = s.mem ∧
        v.outstanding = s.outstanding ++ [{ addr := outputAddress s, word := w }]))

/-- What the fetches and the datapath leave as it was: all but the answers they take, the accumulators
and the cursor. -/
structure Prepared (s u : State) : Prop where
  regs : u.regs = s.regs
  params : u.params = s.params
  status : u.status = s.status
  inputs : u.inputs = s.inputs
  bench : u.bench = s.bench
  ret : u.ret = s.ret
  answers : u.answers <:+ s.answers
  pos : u.pos = { s.pos with uvp := u.pos.uvp }
  mem : u.mem = s.mem
  outstanding : u.outstanding = s.outstanding

theorem prepared_computed (s : State) : Prepared s (computed s) := by
  unfold computed fetched
  split
  · have hanswers : s.answers.tail.tail.tail <:+ s.answers :=
      (List.tail_suffix _).trans ((List.tail_suffix _).trans (List.tail_suffix _))
    exact ⟨rfl, rfl, rfl, rfl, rfl, rfl, hanswers, rfl, rfl, rfl⟩
  · exact ⟨rfl, rfl, rfl, rfl, rfl, rfl, List.tail_suffix _, rfl, rfl, rfl⟩

theorem outputAddress_computed (s : State) : outputAddress (computed s) = outputAddress s := by
  have hp := prepared_computed s
  exact outputAddress_congr hp.regs (by rw [hp.pos])

section Computed

variable {s : State} (hc : RunningCall s)
include hc

theorem computed_uvp :
    (computed s).pos.uvp.toNat = chromaIndex s s.pos.i.toNat s.pos.x.toNat + 2 := by
  obtain hx | hx := Nat.mod_two_eq_zero_or_one s.pos.x.toNat
  · rw [computed, fetched_of_even hx]
    exact hc.uvp_add_two_of_even hx
  · rw [computed, fetched_of_odd hx]
    exact hc.uvp_of_odd hx

/-- The three bytes of the pixel: luma and the pair, just read or kept from the pixel before
(42_traversal_and_fetch.md R104). -/
theorem computed_bytes (hlatch : latchInv s) :
    (computed s).acc.v = inputByte s (chromaIndex s s.pos.i.toNat s.pos.x.toNat) ∧
    (computed s).acc.u = inputByte s (chromaIndex s s.pos.i.toNat s.pos.x.toNat + 1) := by
  obtain hx | hx := Nat.mod_two_eq_zero_or_one s.pos.x.toNat
  · rw [computed, fetched_of_even hx, ← hc.uvp_of_even hx]
    exact ⟨rfl, rfl⟩
  · obtain ⟨hv, hu⟩ := hlatch hc.busy hx
    rw [hc.uvp_of_odd hx] at hv hu
    rw [computed, fetched_of_odd hx]
    exact ⟨hv, hu⟩

/-- The word of the pixel is its closed form (43_pixel_arithmetic.md R126). -/
theorem computed_word (hlatch : latchInv s) :
    (computed s).acc.word = convertWord s s.pos.yp.toNat := by
  obtain ⟨hv, hu⟩ := computed_bytes hc hlatch
  have hy : (fetched s).acc.y = inputByte s s.pos.yp.toNat := by
    unfold fetched
    split <;> rfl
  rw [hc.convertWord_yp, ← hv, ← hu, ← hy]
  rfl

/-- Storing the computed word at once visits the pixel. -/
theorem visited_wordStored : Visited s (wordStored (computed s)) := by
  have hp := prepared_computed s
  refine ⟨hp.regs, hp.params, hp.status, hp.inputs, hp.bench, hp.ret,
    (List.tail_suffix _).trans hp.answers, hp.pos, computed_uvp hc, computed_bytes hc,
    (computed s).acc.word, computed_word hc, .inl ⟨?_, hp.outstanding⟩⟩
  rw [← hp.mem, ← hp.params, ← outputAddress_computed]
  rfl

/-- Issuing the write of the computed word visits the pixel. -/
theorem visited_wordPosted (hlisted : s.answers ≠ []) : Visited s (wordPosted (computed s)) := by
  have hp := prepared_computed s
  refine ⟨hp.regs, hp.params, hp.status, hp.inputs, hp.bench, hp.ret,
    (List.tail_suffix _).trans hp.answers, hp.pos, computed_uvp hc, computed_bytes hc,
    (computed s).acc.word, computed_word hc, .inr ⟨hlisted, hp.mem, ?_⟩⟩
  rw [← hp.outstanding, ← outputAddress_computed]
  rfl

end Computed

end Sys2Proof.Machine

/-! PROOFS. What the pixel step of a running call comes to, and the bytes it leaves
(42_traversal_and_fetch.md R105, R108, 43_pixel_arithmetic.md R123, 20_memory.md R49, R50). -/

namespace Sys2Proof.Machine

/-! ### Reads after outstanding writes -/

/-- What outstanding writes make of a byte depends on that byte alone. -/
theorem read_performed_congr (e : Endian) {a : Nat} (ps : List Posted) {m n : Memory}
    (h : m.read a = n.read a) : (performed e ps m).read a = (performed e ps n).read a := by
  induction ps generalizing m n with
  | nil => exact h
  | cons p ps ih =>
    refine ih ?_
    rw [Memory.read_writeWord, Memory.read_writeWord, h]

namespace RunningCall

variable {s : State} (hc : RunningCall s) {a : Nat}
include hc

/-- The two views of a running call have no byte in common (20_memory.md R50). -/
theorem not_inOutputWords (ha : inInputView s a = true) : ¬ inOutputWords s a := by
  have hdisjoint := hc.disjoint
  simp only [viewsDisjoint, Bool.or_eq_true, decide_eq_true_eq, hc.yuvLen, hc.rgbCap] at hdisjoint
  simp only [inInputView, Bool.and_eq_true, decide_eq_true_eq, hc.yuvLen] at ha
  rw [inOutputWords]
  omega

theorem inInputView_add {k : Nat} (hk : k < frameSize s + frameSize s / 2) :
    inInputView s (s.regs.yuvBase.toNat + k) = true := by
  simp only [inInputView, Bool.and_eq_true, decide_eq_true_eq, hc.yuvLen]
  omega

theorem inOutputWords_iff : inOutputWords s a ↔ inOutputView s a = true := by
  rw [inOutputView_eq_true_iff, hc.rgbCap]

/-- Outstanding writes leave every byte outside the output words as it was. -/
theorem posted_apart (ha : ¬ inOutputWords s a) {p : Posted} (hp : p ∈ s.outstanding) :
    a < p.addr ∨ p.addr + 4 ≤ a := by
  have hwords := lt_or_ge_of_not_inOutputWords ha
  obtain ⟨hlow, hhigh⟩ := hc.posted_bounds hp
  have htop := hc.outputAddress_le
  omega

theorem settledMem_read (ha : ¬ inOutputWords s a) : (settledMem s).read a = s.mem.read a :=
  read_performed_outside _ a _ s.mem fun _ hp => hc.posted_apart ha hp

/-- The word of this pixel lies in the output words. -/
theorem apart_outputAddress (ha : ¬ inOutputWords s a) :
    a < outputAddress s ∨ outputAddress s + 4 ≤ a := by
  have hwords := lt_or_ge_of_not_inOutputWords ha
  have hbase : s.regs.rgbBase.toNat ≤ outputAddress s := Nat.le_add_right _ _
  have htop := hc.outputAddress_le
  omega

end RunningCall

/-! ### The bytes of a visited pixel -/

namespace Visited

variable {s v : State} (hv : Visited s v)
include hv

theorem yp : v.pos.yp = s.pos.yp := by rw [hv.pos]
theorem i : v.pos.i = s.pos.i := by rw [hv.pos]
theorem x : v.pos.x = s.pos.x := by rw [hv.pos]
theorem fs : v.pos.fs = s.pos.fs := by rw [hv.pos]

/-- Besides the pixel's word, no byte changes. -/
theorem read_apart {a : Nat} (ha : a < outputAddress s ∨ outputAddress s + 4 ≤ a) :
    v.mem.read a = s.mem.read a := by
  obtain ⟨w, -, ⟨hmem, -⟩ | ⟨-, hmem, -⟩⟩ := hv.store
  · rw [hmem, Memory.read_writeWord_outside _ _ _ _ _ ha]
  · rw [hmem]

theorem posted_cases {p : Posted} (hp : p ∈ v.outstanding) :
    p ∈ s.outstanding ∨ p.addr = outputAddress s := by
  obtain ⟨w, -, ⟨-, hout⟩ | ⟨-, -, hout⟩⟩ := hv.store
  · exact .inl (hout ▸ hp)
  · rw [hout, List.mem_append, List.mem_singleton] at hp
    exact hp.imp_right (congrArg Posted.addr)

/-- Once every write is performed, the other bytes are what the earlier writes left. -/
theorem settledMem_read_apart {a : Nat} (ha : a < outputAddress s ∨ outputAddress s + 4 ≤ a) :
    (settledMem v).read a = (settledMem s).read a := by
  obtain ⟨w, -, ⟨hmem, hout⟩ | ⟨-, hmem, hout⟩⟩ := hv.store
  · rw [settledMem_eq_performed, hmem, hout, hv.params]
    exact read_performed_congr _ _ (Memory.read_writeWord_outside _ _ _ _ _ ha)
  · rw [settledMem_eq_performed, hmem, hout, hv.params, performed_append]
    exact Memory.read_writeWord_outside _ _ _ _ _ ha

/-- Once every write is performed, the pixel's word is its converted word: the writes still
outstanding are of other words. -/
theorem settledMem_read_word (hc : RunningCall s) (hlatch : latchInv s) {k : Nat} (hk : k < 4) :
    (settledMem v).read (outputAddress s + k) =
      wordByte s.params.endian (convertWord s s.pos.yp.toNat) k := by
  obtain ⟨w, hword, ⟨hmem, hout⟩ | ⟨-, hmem, hout⟩⟩ := hv.store
  · rw [settledMem_eq_performed, hmem, hout, hv.params, ← hword hlatch,
      read_performed_outside, Memory.read_writeWord_inside _ _ _ _ _ hk]
    intro p hp
    obtain ⟨-, hhigh⟩ := hc.posted_bounds hp
    omega
  · rw [settledMem_eq_performed, hmem, hout, hv.params, ← hword hlatch, performed_append]
    exact Memory.read_writeWord_inside _ _ _ _ _ hk

/-- Outside the output words nothing changes, the outstanding writes performed or not. -/
theorem settledMem_read (hc : RunningCall s) {a : Nat} (ha : ¬ inOutputWords s a) :
    (settledMem v).read a = s.mem.read a := by
  rw [hv.settledMem_read_apart (hc.apart_outputAddress ha), hc.settledMem_read ha]

theorem posted_apart (hc : RunningCall s) {a : Nat} (ha : ¬ inOutputWords s a) {p : Posted}
    (hp : p ∈ v.outstanding) : a < p.addr ∨ p.addr + 4 ≤ a := by
  obtain hold | hnew := hv.posted_cases hp
  · exact hc.posted_apart ha hold
  · rw [hnew]
    exact hc.apart_outputAddress ha

end Visited

/-! ### What the pixel step comes to -/

@[simp] theorem runSequence_singleton (i : Instr) (s : State) : runSequence [i] s = exec i s := by
  rw [runSequence]
  cases exec i s with
  | next t => exact ite_self _
  | fault f => rfl
  | refused r => rfl

/-- From a running call the twelve micro-operations visit the pixel and come to `ADV`, or an access
fails. -/
theorem pixelStep_visits {s : State} (hc : RunningCall s) :
    (∃ v, Visited s v ∧ pixelStep s = execAdv v) ∨ ∃ t, Bridged s t ∧ pixelStep s = .next t := by
  obtain hfetch | hfailed := runSequence_fetch hc
    [.ped, .bias, .matr, .matg, .matb, .descale, .clamp, .pack, .stw, .adv]
  case inr => exact .inr hfailed
  have hstart : (fetched s).status.busy = true := by rw [fetched_status]; exact hc.busy
  rw [runSequence_datapath hstart] at hfetch
  have hpixel : pixelStep s = runSequence [.stw, .adv] (computed s) := hfetch
  have hp := prepared_computed s
  have halign : outputAddress (computed s) % 4 = 0 := by
    rw [outputAddress_computed]
    exact hc.outputAddress_aligned
  have htop : outputAddress (computed s) + 4 ≤ 2 ^ (computed s).params.aw := by
    rw [outputAddress_computed, hp.params]
    exact hc.outputAddress_le_top
  cases hanswer : answer (computed s) with
  | ok =>
    refine .inl ⟨_, visited_wordStored hc, hpixel.trans ?_⟩
    exact (runSequence_cons_busy (exec_stw_of_ok halign htop hanswer) hstart).trans
      (runSequence_singleton _ _)
  | later =>
    have hlisted : s.answers ≠ [] := fun hnil => by
      have hnone := hp.answers
      rw [hnil, List.suffix_nil] at hnone
      simp [answer_of_nil hnone] at hanswer
    refine .inl ⟨_, visited_wordPosted hc hlisted, hpixel.trans ?_⟩
    exact (runSequence_cons_busy (exec_stw_of_later halign htop hanswer) hstart).trans
      (runSequence_singleton _ _)
  | error =>
    have hlisted := errorListed_of_answer hp.params hp.answers hanswer
    exact .inr ⟨_, .of_raiseBridge (u := answered (computed s)) hp.regs hp.mem hlisted, hpixel.trans
      (runSequence_cons_idle (exec_stw_of_error halign htop hanswer) rfl)⟩

/-- The three ways on from a visited pixel (42_traversal_and_fetch.md R105). -/
inductive Advanced (s v : State) : State → Prop where
  | pixel (hx : s.pos.x.toNat + 1 < s.regs.width.toNat) : Advanced s v (nextPixel v)
  | row (hx : s.pos.x.toNat + 1 = s.regs.width.toNat) (hi : s.pos.i.toNat + 1 < s.regs.height.toNat) :
      Advanced s v (rowStart (nextRow v))
  | last (hx : s.pos.x.toNat + 1 = s.regs.width.toNat) (hi : s.pos.i.toNat + 1 = s.regs.height.toNat) :
      Advanced s v (completedCall (nextRow v))

/-- A wait of `FINISH` that fails is a bridge failure of the call. -/
theorem Visited.bridged_of_failedWait {s v : State} (hv : Visited s v) (hc : RunningCall s) {n : Nat}
    (hfail : failsAt (nextRow v) n) : Bridged s (raiseBridge (failedWait (nextRow v) n)) where
  status := rfl
  regs := hv.regs
  outstanding := rfl
  outside a ha := by
    have hwords : ¬ inOutputWords (nextRow v) a := by
      rw [inOutputWords, frameSize_congr (s := s) (t := nextRow v) hv.regs]
      exact hv.regs ▸ ha
    exact (raiseBridge_failedWait_read (s := nextRow v) (fun p hp => hv.posted_apart hc ha hp)
      hwords).trans (hv.read_apart (hc.apart_outputAddress ha))
  listed := by
    obtain ⟨hcan, hmem⟩ := error_mem_of_failsAt hfail
    exact ⟨hv.params ▸ hcan, hv.answers.subset hmem⟩

/-- `ADV` from a visited pixel. -/
theorem Visited.execAdv_outcome {s v : State} (hv : Visited s v) (hc : RunningCall s) :
    ∃ t, execAdv v = .next t ∧ (Bridged s t ∨ Advanced s v t) := by
  have hwidth : v.regs.width = s.regs.width := by rw [hv.regs]
  have hheight : v.regs.height = s.regs.height := by rw [hv.regs]
  obtain hx | ⟨hx, hi⟩ | ⟨hx, hi⟩ := hc.position_cases
  · exact ⟨_, execAdv_of_lt (by rw [hv.x, hwidth]; exact hx), .inr (.pixel hx)⟩
  · have hsucc : (v.pos.i + 1#32).toNat = s.pos.i.toNat + 1 := by rw [hv.i, i_succ hi.le]
    exact ⟨_, execAdv_of_rowEnd (by rw [hv.x, hwidth]; exact hx.ge) (by rw [hsucc, hheight]; exact hi),
      .inr (.row hx hi)⟩
  · have hsucc : (v.pos.i + 1#32).toNat = s.pos.i.toNat + 1 := by rw [hv.i, i_succ hi.le]
    rw [execAdv_of_frameEnd (by rw [hv.x, hwidth]; exact hx.ge) (by rw [hsucc, hheight]; exact hi.ge)]
    obtain hdone | ⟨n, hfail, hfailed⟩ := finishCall_ends (nextRow v)
    · exact ⟨_, hdone, .inr (.last hx hi)⟩
    · exact ⟨_, hfailed, .inl (hv.bridged_of_failedWait hc hfail)⟩

/-- The pixel step of a running call always has a next state: a bridge failure, or the pixel visited and
the position advanced. -/
theorem pixelStep_outcome {s : State} (hc : RunningCall s) :
    ∃ t, pixelStep s = .next t ∧ (Bridged s t ∨ ∃ v, Visited s v ∧ Advanced s v t) := by
  obtain ⟨v, hv, hpixel⟩ | ⟨t, hbridged, hpixel⟩ := pixelStep_visits hc
  · obtain ⟨t, hadv, hend⟩ := hv.execAdv_outcome hc
    exact ⟨t, hpixel.trans hadv, hend.imp_right fun h => ⟨v, hv, h⟩⟩
  · exact ⟨t, hpixel, .inl hbridged⟩

/-- The one list of what the pixel step of a running call can do. -/
theorem pixelStep_next {s t : State} (hc : RunningCall s) (h : pixelStep s = .next t) :
    Bridged s t ∨ ∃ v, Visited s v ∧ Advanced s v t := by
  obtain ⟨u, hpixel, hend⟩ := pixelStep_outcome hc
  obtain rfl : u = t := Host.Outcome.next.inj (hpixel.symm.trans h)
  exact hend

/-- Settles O44: the accepted operands keep every access aligned and inside the address space. -/
theorem pixelStepNeverStops : Obligations.PixelStepNeverStops := by
  intro s hinv hbusy
  obtain ⟨t, hpixel, -⟩ := pixelStep_outcome (runningCall_of_callInv hinv hbusy)
  exact ⟨t, hpixel⟩

/-! ### The last pixel -/

namespace RunningCall

variable {s : State} (hc : RunningCall s) (hx : s.pos.x.toNat + 1 = s.regs.width.toNat)
include hc hx

/-- The first pixel of the next row. -/
theorem yp_add_one_of_rowEnd :
    s.pos.yp.toNat + 1 = (s.pos.i.toNat + 1) * s.regs.width.toNat := by
  rw [hc.yp, Nat.add_mul, Nat.one_mul]
  omega

theorem yp_add_one_of_frameEnd (hi : s.pos.i.toNat + 1 = s.regs.height.toNat) :
    s.pos.yp.toNat + 1 = frameSize s := by
  rw [hc.yp_add_one_of_rowEnd hx, hi, frameSize, Nat.mul_comm]

end RunningCall

end Sys2Proof.Machine

/-! PROOFS. The moves of the hardware and the invariants of a call, which every move keeps
(10_state.md R21, R23, 20_memory.md R49 to R53, 41_converter_command.md R90, R94,
42_traversal_and_fetch.md R109, R110). -/

namespace Sys2Proof.Machine

/-! ### The moves of the hardware -/

/-- What one move can do, from every state with an empty bench. -/
inductive Move (s : State) : Input → State → Prop where
  /-- A value is returned at most. -/
  | returns (e : Input) (v : DWord) : Move s e { s with ret := v }
  | operands (x : Transaction) (r : OperandRegs) (hidle : s.status.busy = false) :
      Move s (.transaction x) { s with regs := r }
  | converts (x : Transaction) (r : BitVec 63) (t : State) (hidle : s.status.busy = false)
      (hx : decodeTransaction x = .convert r) (ht : ConvertEffect s t) : Move s (.transaction x) t
  | pixel (t : State) (hbusy : s.status.busy = true) (ht : pixelStep s = .next t) : Move s .turn t
  | awaits : Move s .memAnswer (answered s)
  | performs (p : Posted) (ps : List Posted) (hcons : s.outstanding = p :: ps) :
      Move s .memAnswer (oldestPerformed s p ps)
  | fails (herr : answer s = .error) (hsome : s.outstanding ≠ []) :
      Move s .memAnswer (raiseBridge (answered s))
  | stores (a : Nat) (b : Byte)
      (hfree : ¬ (s.status.busy = true ∧ (inInputView s a = true ∨ inOutputView s a = true))) :
      Move s (.hostStore a b) { s with mem := s.mem.write a b }
  | resets : Move s .reset (resetTurn s)

theorem move_of_memoryTurn {s t : State} (h : memoryTurn s = .next t) : Move s .memAnswer t := by
  cases hout : s.outstanding with
  | nil =>
    rw [memoryTurn_of_nil hout] at h
    obtain rfl := Host.Outcome.next.inj h
    exact .returns _ s.ret
  | cons p ps =>
    cases hanswer : answer s with
    | ok =>
      rw [memoryTurn_of_ok hout hanswer] at h
      obtain rfl := Host.Outcome.next.inj h
      exact .performs p ps hout
    | error =>
      rw [memoryTurn_of_error hout hanswer] at h
      obtain rfl := Host.Outcome.next.inj h
      exact .fails hanswer (by simp [hout])
    | later =>
      rw [memoryTurn_of_later hout hanswer] at h
      obtain rfl := Host.Outcome.next.inj h
      exact .awaits

theorem move_of_sequencerTurn {s t : State} (h : sequencerTurn s = .next t) : Move s .turn t := by
  cases hbusy : s.status.busy with
  | true => exact .pixel t hbusy ((sequencerTurn_of_busy hbusy).symm.trans h)
  | false =>
    rw [sequencerTurn_of_idle hbusy] at h
    obtain rfl := Host.Outcome.next.inj h
    exact .returns _ s.ret

theorem move_of_takeInput {e : Input} {s t : State} (h : takeInput e s = .next t) : Move s e t := by
  cases e with
  | transaction x =>
    obtain ⟨v, rfl⟩ | ⟨hidle, -, r, rfl⟩ | ⟨hidle, ⟨r, hr⟩, ht⟩ :=
      hostEffect_of_exec (decodeTransaction_isHost x) h
    · exact .returns _ v
    · exact .operands x r hidle
    · exact .converts x r t hidle hr ht
  | turn => exact move_of_sequencerTurn h
  | memAnswer => exact move_of_memoryTurn h
  | hostStore a b =>
    obtain ⟨hfree, rfl⟩ := hostStore_next h
    exact .stores a b hfree
  | hostLoad a =>
    obtain ⟨v, rfl⟩ := hostLoad_next h
    exact .returns _ v
  | reset =>
    obtain rfl := Host.Outcome.next.inj h
    exact .resets

theorem move_of_step {s t : State} (hbench : s.bench = none) (h : step s = .next t) :
    Move (taken s) (nextInput s) t :=
  move_of_takeInput ((step_of_bench_none hbench).symm.trans h)

/-! ### The invariant of the sequencer -/

/-- Every outstanding write is of a pixel passed once the position has advanced. -/
theorem Visited.posted {s v t : State} (hv : Visited s v) (hc : RunningCall s) (hregs : t.regs = s.regs)
    (hyp : t.pos.yp.toNat = s.pos.yp.toNat + 1) : v.outstanding.all (postedBefore t) = true := by
  have hnext : outputAddress t = outputAddress s + 4 := by
    rw [outputAddress, outputAddress, hregs, hyp]
    omega
  refine List.all_eq_true.2 fun p hp => ?_
  simp only [postedBefore, Bool.and_eq_true, decide_eq_true_eq, hregs, hnext]
  obtain hold | hnew := hv.posted_cases hp
  · have hbefore := List.all_eq_true.1 hc.posted p hold
    simp only [postedBefore, Bool.and_eq_true, decide_eq_true_eq] at hbefore
    omega
  · have halign := hc.outputAddress_aligned
    rw [hnew]
    exact ⟨⟨Nat.le_add_right _ _, halign⟩, le_refl _⟩

section Advance

variable {s v : State} (hc : RunningCall s) (hv : Visited s v)
include hc hv

/-- The next pixel of the row is a pixel of the call. -/
theorem runningCall_nextPixel (hx : s.pos.x.toNat + 1 < s.regs.width.toNat) :
    RunningCall (nextPixel v) := by
  have hregs : (nextPixel v).regs = s.regs := hv.regs
  have hX : (nextPixel v).pos.x.toNat = s.pos.x.toNat + 1 := by rw [← x_succ hx, ← hv.x]; rfl
  have hI : (nextPixel v).pos.i = s.pos.i := hv.i
  have hYP : (nextPixel v).pos.yp.toNat = s.pos.yp.toNat + 1 := by rw [← hc.yp_succ, ← hv.yp]; rfl
  exact {
    busy := hv.status ▸ hc.busy
    valid := validOperands_congr hregs hv.params hc.valid
    disjoint := (viewsDisjoint_congr hregs).trans hc.disjoint
    fs := by rw [frameSize_congr hregs, ← hc.fs, ← hv.fs]; rfl
    row := by rw [hI, hregs]; exact hc.row
    column := by rw [hX, hregs]; exact hx
    yp := by rw [hYP, hI, hX, hregs, hc.yp]; rfl
    uvp := by
      rw [hX, hI, frameSize_congr hregs, hregs]
      refine hv.uvp.trans ?_
      rw [chromaIndex]
      omega
    posted := hv.posted hc hregs hYP }

/-- The first pixel of the next row is a pixel of the call. -/
theorem runningCall_nextRow (hx : s.pos.x.toNat + 1 = s.regs.width.toNat)
    (hi : s.pos.i.toNat + 1 < s.regs.height.toNat) : RunningCall (rowStart (nextRow v)) := by
  have hregs : (rowStart (nextRow v)).regs = s.regs := hv.regs
  have hX : (rowStart (nextRow v)).pos.x.toNat = 0 := rfl
  have hI : (rowStart (nextRow v)).pos.i.toNat = s.pos.i.toNat + 1 := by
    rw [← i_succ hi.le, ← hv.i]; rfl
  have hYP : (rowStart (nextRow v)).pos.yp.toNat = s.pos.yp.toNat + 1 := by
    rw [← hc.yp_succ, ← hv.yp]; rfl
  have hFS : (nextRow v).pos.fs.toNat = frameSize s := by rw [← hc.fs, ← hv.fs]; rfl
  have hcolumn : 0 < s.regs.width.toNat := by omega
  have hfits : frameSize s + (s.pos.i.toNat + 1) / 2 * s.regs.width.toNat < 2 ^ 64 := by
    have hpair := Machine.chromaIndex_lt hc.dimension hi hcolumn
    have hlen : s.regs.yuvLen.toNat < 2 ^ 64 := s.regs.yuvLen.isLt
    rw [chromaIndex] at hpair
    rw [hc.yuvLen] at hlen
    omega
  exact {
    busy := hv.status ▸ hc.busy
    valid := validOperands_congr hregs hv.params hc.valid
    disjoint := (viewsDisjoint_congr hregs).trans hc.disjoint
    fs := by rw [frameSize_congr hregs]; exact hFS
    row := by rw [hI, hregs]; exact hi
    column := by rw [hX, hregs]; exact hcolumn
    yp := by rw [hYP, hI, hX, hregs, hc.yp_add_one_of_rowEnd hx]; rfl
    uvp := by
      rw [hX, hI, frameSize_congr hregs, hregs]
      have hrow : (nextRow v).pos.i.toNat = s.pos.i.toNat + 1 := hI
      have hwidth : (nextRow v).regs.width = s.regs.width := by rw [← hv.regs]; rfl
      rw [rowStart_pos, BitVec.toNat_ofNat, hFS, hrow, hwidth, Nat.mod_eq_of_lt hfits]
      rfl
    posted := hv.posted hc hregs hYP }

end Advance

/-- The first state of a call is one of a running call. -/
theorem runningCall_startedCall {s : State} (hvalid : validOperands s) (hdisjoint : viewsDisjoint s = true)
    (hnone : s.outstanding = []) : RunningCall (startedCall s) := by
  obtain ⟨-, hdim, -, -⟩ := id hvalid
  have hsize : 0 < s.regs.width.toNat ∧ 0 < s.regs.height.toNat := by
    rw [badDimension] at hdim
    omega
  exact {
    busy := rfl
    valid := hvalid
    disjoint := hdisjoint
    fs := initFrame_fs_toNat s
    row := hsize.2
    column := hsize.1
    yp := (Nat.zero_mul _).symm
    uvp := by
      rw [startedCall_uvp_toNat]
      have hrow : (startedCall s).pos.i.toNat = 0 := rfl
      have hcolumn : (startedCall s).pos.x.toNat = 0 := rfl
      rw [hrow, hcolumn, Nat.zero_div, Nat.zero_mul]
      rfl
    posted := List.all_eq_true.2 fun p hp => absurd (hnone ▸ hp) List.not_mem_nil }

/-- A write performed leaves the others outstanding. -/
theorem runningCall_oldestPerformed {s : State} (hc : RunningCall s) {p : Posted} {ps : List Posted}
    (hcons : s.outstanding = p :: ps) : RunningCall (oldestPerformed s p ps) := by
  have hposted := hc.posted
  rw [hcons, List.all_cons, Bool.and_eq_true] at hposted
  exact ⟨hc.busy, hc.valid, hc.disjoint, hc.fs, hc.row, hc.column, hc.yp, hc.uvp, hposted.2⟩

/-- The sequencer's invariant holds after every move. -/
theorem callInv_of_move {e : Input} {s t : State} (hinv : callInv s) (hmove : Move s e t) :
    callInv t := by
  cases hmove with
  | returns v => exact hinv
  | operands x r hidle => exact callInv_of_idle hidle (hinv.1 hidle)
  | converts x r t hidle hx ht =>
    obtain ⟨hvalid, hdisjoint, rfl⟩ | ⟨-, rfl⟩ := ht
    · exact (runningCall_startedCall hvalid hdisjoint (hinv.1 hidle)).callInv
    · exact callInv_of_idle rfl (hinv.1 hidle)
  | pixel t hbusy ht =>
    have hc := runningCall_of_callInv hinv hbusy
    obtain hbridged | ⟨v, hv, hadv⟩ := pixelStep_next hc ht
    · exact callInv_of_idle (by rw [hbridged.status]; rfl) hbridged.outstanding
    · cases hadv with
      | pixel hx => exact (runningCall_nextPixel hc hv hx).callInv
      | row hx hi => exact (runningCall_nextRow hc hv hx hi).callInv
      | last hx hi => exact callInv_of_idle rfl rfl
  | awaits => exact hinv
  | performs p ps hcons =>
    cases hbusy : s.status.busy with
    | true => exact (runningCall_oldestPerformed (runningCall_of_callInv hinv hbusy) hcons).callInv
    | false => simp [hinv.1 hbusy] at hcons
  | fails herr hsome => exact callInv_of_idle rfl rfl
  | stores a b hfree => exact hinv
  | resets => exact callInv_of_idle rfl rfl

/-- Settles O53: the invariant speaks of nothing a step takes, and every move keeps it. -/
theorem stepKeepsTheCallInvariant : Obligations.StepKeepsTheCallInvariant :=
  fun s _ hinv hbench h => callInv_of_move (s := taken s) hinv (move_of_step hbench h)

/-! ### Memory outside the output view -/

theorem busy_of_outstanding {s : State} (hinv : callInv s) (hsome : s.outstanding ≠ []) :
    s.status.busy = true :=
  (Bool.eq_false_or_eq_true s.status.busy).resolve_right fun hidle => hsome (hinv.1 hidle)

/-- The last visited pixel's call, completed, has changed no byte outside the output words. -/
theorem Advanced.read_outside {s v t : State} (hadv : Advanced s v t) (hc : RunningCall s)
    (hv : Visited s v) {a : Nat} (ha : ¬ inOutputWords s a) : t.mem.read a = s.mem.read a := by
  cases hadv with
  | pixel => exact hv.read_apart (hc.apart_outputAddress ha)
  | row => exact hv.read_apart (hc.apart_outputAddress ha)
  | last => exact hv.settledMem_read hc ha

/-- No move but a host store changes a byte outside the output view. -/
theorem Move.read_outside {e : Input} {s t : State} (hmove : Move s e t) (hinv : callInv s)
    (hstore : ∀ a b, e ≠ .hostStore a b) {a : Nat} (ha : inOutputView s a = false) :
    t.mem.read a = s.mem.read a := by
  have hwords : ∀ hbusy : s.status.busy = true, ¬ inOutputWords s a := fun hbusy => by
    rw [(runningCall_of_callInv hinv hbusy).inOutputWords_iff, ha]
    decide
  cases hmove with
  | returns v => rfl
  | operands x r hidle => rfl
  | converts x r t hidle hx ht =>
    obtain ⟨-, -, rfl⟩ | ⟨-, rfl⟩ := ht
    · rfl
    · rfl
  | pixel t hbusy ht =>
    have hc := runningCall_of_callInv hinv hbusy
    obtain hbridged | ⟨v, hv, hadv⟩ := pixelStep_next hc ht
    · exact hbridged.outside a (hwords hbusy)
    · exact hadv.read_outside hc hv (hwords hbusy)
  | awaits => rfl
  | performs p ps hcons =>
    have hbusy := busy_of_outstanding hinv (by simp [hcons])
    have hp : p ∈ s.outstanding := hcons ▸ List.mem_cons_self
    exact Memory.read_writeWord_outside _ _ _ _ _
      ((runningCall_of_callInv hinv hbusy).posted_apart (hwords hbusy) hp)
  | fails herr hsome =>
    have hbusy := busy_of_outstanding hinv hsome
    exact raiseBridge_read_outside (answered s) a (lt_or_ge_of_not_inOutputWords (hwords hbusy))
  | stores c b hfree => exact absurd rfl (hstore c b)
  | resets =>
    cases hbusy : s.status.busy with
    | false => rw [resetTurn_mem_idle s hbusy]
    | true =>
      rw [resetTurn_mem_busy s hbusy, Memory.read_unspecify]
      exact if_neg (hwords hbusy)

/-- Settles O42: a host store is the one move left out. -/
theorem onlyTheOutputViewIsWritten : Obligations.OnlyTheOutputViewIsWritten := by
  intro s t hinv hbench hstore h a ha
  refine (move_of_step hbench h).read_outside (s := taken s) hinv (fun c b he => ?_) ha
  exact hstore c b (head?_of_nextInput he (by simp))

/-- During a call no move changes a byte of the input view. -/
theorem Move.read_input {e : Input} {s t : State} (hmove : Move s e t) (hc : RunningCall s) {a : Nat}
    (ha : inInputView s a = true) : t.mem.read a = s.mem.read a := by
  have hout : inOutputView s a = false :=
    Bool.eq_false_iff.2 fun h => hc.not_inOutputWords ha (hc.inOutputWords_iff.2 h)
  cases hmove with
  | stores c b hfree =>
    have hne : a ≠ c := fun hac => hfree ⟨hc.busy, .inl (hac ▸ ha)⟩
    exact (Memory.read_write s.mem c b a).trans (if_neg hne)
  | returns v => rfl
  | operands x r hidle => rfl
  | awaits => rfl
  | converts x r t hidle hx ht =>
    exact (Move.converts x r t hidle hx ht).read_outside hc.callInv (by simp) hout
  | pixel t hbusy ht => exact (Move.pixel t hbusy ht).read_outside hc.callInv (by simp) hout
  | performs p ps hcons => exact (Move.performs p ps hcons).read_outside hc.callInv (by simp) hout
  | fails herr hsome => exact (Move.fails herr hsome).read_outside hc.callInv (by simp) hout
  | resets => exact Move.resets.read_outside hc.callInv (by simp) hout

/-- Settles O43: the views are disjoint, and the host has no store to either. -/
theorem inputViewUnchangedDuringACall : Obligations.InputViewUnchangedDuringACall :=
  fun s _ hinv hbench hbusy h _ ha =>
    (move_of_step hbench h).read_input (runningCall_of_callInv (s := taken s) hinv hbusy) ha

/-! ### STATUS -/

theorem head?_of_nextInput_turn {s : State} (he : nextInput s = .turn) :
    s.inputs.head? = none ∨ s.inputs.head? = some .turn := by
  rw [nextInput] at he
  cases hhead : s.inputs.head? with
  | none => exact .inl rfl
  | some e => exact .inr (by simpa [hhead] using he)

/-- Settles O40: of all moves only a `CONVERT` on an idle block, the last pixel, a failed access and
reset change `STATUS`. -/
theorem onlyThreeEventsEndACall : Obligations.OnlyThreeEventsEndACall := by
  intro s t hinv hbench h
  have hmove := move_of_step hbench h
  generalize he : nextInput s = e at hmove
  cases hmove with
  | returns v => exact .inl rfl
  | operands x r hidle => exact .inl rfl
  | awaits => exact .inl rfl
  | performs p ps hcons => exact .inl rfl
  | stores a b hfree => exact .inl rfl
  | converts x r t hidle hx ht =>
    have heffect : HostEffect (.convert r) (taken s) t := .inr (.inr ⟨hidle, ⟨r, rfl⟩, ht⟩)
    obtain hsame | ⟨-, -, hstatus⟩ := heffect.status
    · exact .inl hsame
    · refine .inr (.inl ⟨hidle, ⟨x, r, head?_of_nextInput he (by simp), ?_⟩, ?_⟩)
      · rw [decode_transactionBytes, hx]
      · obtain hs | hs | hs | hs | hs := hstatus <;> rw [hs] <;> decide
  | pixel t hbusy ht =>
    have hc := runningCall_of_callInv (s := taken s) hinv hbusy
    have hturn := head?_of_nextInput_turn he
    obtain hbridged | ⟨v, hv, hadv⟩ := pixelStep_next hc ht
    · exact .inr (.inr (.inr (.inl ⟨hbusy, hturn.imp_right .inl, hbridged.listed.1, hbridged.listed.2,
        by rw [hbridged.status, statusWord_bridge]⟩)))
    · cases hadv with
      | pixel hx => exact .inl hv.status
      | row hx hi => exact .inl hv.status
      | last hx hi => exact .inr (.inr (.inl ⟨hbusy, hturn, hc.yp_add_one_of_frameEnd hx hi,
          statusWord_statusDone⟩))
  | fails herr hsome =>
    obtain ⟨hcan, hmem⟩ := errorListed_of_answer (s := taken s) rfl List.suffix_rfl herr
    exact .inr (.inr (.inr (.inl ⟨busy_of_outstanding (s := taken s) hinv hsome,
      .inr (.inr (head?_of_nextInput he (by simp))), hcan, hmem, statusWord_bridge⟩)))
  | resets =>
    exact .inr (.inr (.inr (.inr ⟨head?_of_nextInput he (by simp), statusWord_resetStatus⟩)))

end Sys2Proof.Machine

/-! PROOFS. The frame of a call: the chroma latch, the converted part, the completed frame, and the number
of pixel steps (10_state.md R23, 41_converter_command.md R90, R94, 42_traversal_and_fetch.md R104,
R109). -/

namespace Sys2Proof.Machine

/-! ### What depends on the input bytes alone -/

section SameInput

variable {s t : State} (hc : RunningCall s) (hregs : t.regs = s.regs)
  (hin : ∀ a, inInputView s a = true → t.mem.read a = s.mem.read a)
include hc hregs hin

theorem inputByte_congr {k : Nat} (hk : k < frameSize s + frameSize s / 2) :
    inputByte t k = inputByte s k := by
  rw [inputByte, hregs, hin _ (hc.inInputView_add hk), inputByte]

theorem convertWord_congr_of_input {p : Nat} (hp : p < frameSize s) :
    convertWord t p = convertWord s p :=
  convertWord_congr hc.dimension (by rw [hregs]) (by rw [hregs])
    (fun _ hk => inputByte_congr hc hregs hin hk) hp

theorem holdsPixel_congr (hparams : t.params = s.params) {m n : Memory} {p : Nat} (hp : p < frameSize s)
    (hread : ∀ a, inOutputWords s a → n.read a = m.read a) (hs : holdsPixel s m p) :
    holdsPixel t n p := by
  intro k hk
  have hword : inOutputWords s (s.regs.rgbBase.toNat + 4 * p + k) := by
    rw [inOutputWords]
    omega
  rw [hregs, hparams, hread _ hword, hs k hk, convertWord_congr_of_input hc hregs hin hp]

/-- The latch is kept where the accumulators, the position and the input bytes are. -/
theorem latchInv_congr (hpos : t.pos = s.pos) (hacc : t.acc = s.acc) (hlatch : latchInv s) :
    latchInv t := by
  intro _ hx
  rw [hpos] at hx
  have hpair := hc.chromaIndex_lt
  have huvp := hc.uvp_of_odd hx
  rw [hpos, hacc, inputByte_congr hc hregs hin (by omega), inputByte_congr hc hregs hin (by omega)]
  exact hlatch hc.busy hx

/-- The converted part is kept where the position, the input bytes and the words to come are. -/
theorem frameInv_congr (hparams : t.params = s.params) (hpos : t.pos = s.pos)
    (hout : ∀ a, inOutputWords s a → (settledMem t).read a = (settledMem s).read a)
    (hframe : frameInv s) : frameInv t := by
  intro _ p hp
  rw [hpos] at hp
  exact holdsPixel_congr hc hregs hin hparams (hp.trans hc.yp_lt) hout (hframe hc.busy p hp)

end SameInput

/-! ### The chroma latch -/

theorem latchInv_of_idle {s : State} (hidle : s.status.busy = false) : latchInv s :=
  fun hbusy => absurd (hbusy.symm.trans hidle) (by decide)

theorem latchInv_of_column_zero {s : State} (hx : s.pos.x = 0#32) : latchInv s := by
  intro _ hodd
  simp [hx] at hodd

/-- After a visited pixel the latch holds the pair of that pixel (42_traversal_and_fetch.md R104). -/
theorem latchInv_nextPixel {s v : State} (hc : RunningCall s) (hv : Visited s v) (hlatch : latchInv s) :
    latchInv (nextPixel v) := by
  obtain ⟨hV, hU⟩ := hv.latch hlatch
  have hpair := hc.chromaIndex_lt
  have hin : ∀ a, inInputView s a = true → (nextPixel v).mem.read a = s.mem.read a := fun a ha =>
    hv.read_apart (hc.apart_outputAddress (hc.not_inOutputWords ha))
  have hcursor : (nextPixel v).pos.uvp.toNat = chromaIndex s s.pos.i.toNat s.pos.x.toNat + 2 := hv.uvp
  have hback : chromaIndex s s.pos.i.toNat s.pos.x.toNat + 2 - 1 =
      chromaIndex s s.pos.i.toNat s.pos.x.toNat + 1 := rfl
  intro _ _
  rw [hcursor, Nat.add_sub_cancel, hback,
    inputByte_congr (t := nextPixel v) hc hv.regs hin (Nat.lt_of_succ_lt hpair),
    inputByte_congr (t := nextPixel v) hc hv.regs hin hpair]
  exact ⟨hV, hU⟩

theorem latchInv_of_move {e : Input} {s t : State} (hinv : callInv s) (hlatch : latchInv s)
    (hmove : Move s e t) : latchInv t := by
  cases hmove with
  | returns v => exact hlatch
  | operands x r hidle => exact latchInv_of_idle hidle
  | converts x r t hidle hx ht =>
    obtain ⟨-, -, rfl⟩ | ⟨-, rfl⟩ := ht
    · exact latchInv_of_column_zero rfl
    · exact latchInv_of_idle rfl
  | pixel t hbusy ht =>
    have hc := runningCall_of_callInv hinv hbusy
    obtain hbridged | ⟨v, hv, hadv⟩ := pixelStep_next hc ht
    · exact latchInv_of_idle (by rw [hbridged.status]; rfl)
    · cases hadv with
      | pixel hx => exact latchInv_nextPixel hc hv hlatch
      | row hx hi => exact latchInv_of_column_zero rfl
      | last hx hi => exact latchInv_of_idle rfl
  | awaits => exact hlatch
  | performs p ps hcons =>
    have hc := runningCall_of_callInv hinv (busy_of_outstanding hinv (by simp [hcons]))
    exact latchInv_congr (t := oldestPerformed s p ps) hc rfl
      (fun _ ha => (Move.performs p ps hcons).read_input hc ha) rfl rfl hlatch
  | fails herr hsome => exact latchInv_of_idle rfl
  | stores a b hfree =>
    intro hbusy
    have hc := runningCall_of_callInv hinv hbusy
    exact latchInv_congr (t := { s with mem := s.mem.write a b }) hc rfl
      (fun _ ha => (Move.stores a b hfree).read_input hc ha) rfl rfl hlatch hbusy
  | resets => exact latchInv_of_idle rfl

/-- Settles O54: the pair just read stays in the accumulators, and no move changes its bytes. -/
theorem stepKeepsTheChromaLatch : Obligations.StepKeepsTheChromaLatch :=
  fun s _ hinv hbench hlatch h => latchInv_of_move (s := taken s) hinv hlatch (move_of_step hbench h)

/-! ### The converted part of the frame -/

theorem frameInv_of_idle {s : State} (hidle : s.status.busy = false) : frameInv s :=
  fun hbusy => absurd (hbusy.symm.trans hidle) (by decide)

/-- A visited pixel joins the converted part: its word is under way or in memory, and the words before
are as they were. -/
theorem Visited.holdsPixel {s v : State} (hv : Visited s v) (hc : RunningCall s) (hlatch : latchInv s)
    (hframe : frameInv s) {p : Nat} (hp : p ≤ s.pos.yp.toNat) :
    Machine.holdsPixel s (settledMem v) p := by
  intro k hk
  obtain hlt | rfl := hp.lt_or_eq
  · rw [hv.settledMem_read_apart (.inl (by rw [outputAddress]; omega))]
    exact hframe hc.busy p hlt k hk
  · exact hv.settledMem_read_word hc hlatch hk

/-- One more pixel is converted wherever a visited pixel leads. -/
theorem frameInv_of_visited {s v t : State} (hv : Visited s v) (hc : RunningCall s)
    (hlatch : latchInv s) (hframe : frameInv s) (hregs : t.regs = v.regs) (hparams : t.params = v.params)
    (hmem : t.mem = v.mem) (hsettled : settledMem t = settledMem v)
    (hyp : t.pos.yp = v.pos.yp + 1#64) : frameInv t := by
  intro _ p hp
  have hle : p ≤ s.pos.yp.toNat := by
    rw [hyp, hv.yp, hc.yp_succ] at hp
    exact Nat.lt_succ_iff.1 hp
  have hin : ∀ a, inInputView s a = true → t.mem.read a = s.mem.read a := fun a ha => by
    rw [hmem]
    exact hv.read_apart (hc.apart_outputAddress (hc.not_inOutputWords ha))
  rw [hsettled]
  exact holdsPixel_congr hc (hregs.trans hv.regs) hin (hparams.trans hv.params)
    (hle.trans_lt hc.yp_lt) (fun _ _ => rfl) (hv.holdsPixel hc hlatch hframe hle)

theorem frameInv_of_move {e : Input} {s t : State} (hinv : callInv s) (hlatch : latchInv s)
    (hframe : frameInv s) (hmove : Move s e t) : frameInv t := by
  cases hmove with
  | returns v => exact hframe
  | operands x r hidle => exact frameInv_of_idle hidle
  | converts x r t hidle hx ht =>
    obtain ⟨-, -, rfl⟩ | ⟨-, rfl⟩ := ht
    · exact fun _ p hp => absurd hp (Nat.not_lt_zero p)
    · exact frameInv_of_idle rfl
  | pixel t hbusy ht =>
    have hc := runningCall_of_callInv hinv hbusy
    obtain hbridged | ⟨v, hv, hadv⟩ := pixelStep_next hc ht
    · exact frameInv_of_idle (by rw [hbridged.status]; rfl)
    · cases hadv with
      | pixel hx => exact frameInv_of_visited hv hc hlatch hframe rfl rfl rfl rfl rfl
      | row hx hi => exact frameInv_of_visited hv hc hlatch hframe rfl rfl rfl rfl rfl
      | last hx hi => exact frameInv_of_idle rfl
  | awaits => exact hframe
  | performs p ps hcons =>
    have hc := runningCall_of_callInv hinv (busy_of_outstanding hinv (by simp [hcons]))
    refine frameInv_congr (t := oldestPerformed s p ps) hc rfl
      (fun _ ha => (Move.performs p ps hcons).read_input hc ha) rfl rfl (fun _ _ => ?_) hframe
    rw [settledMem_eq_performed s, hcons]
    rfl
  | fails herr hsome => exact frameInv_of_idle rfl
  | stores a b hfree =>
    intro hbusy
    have hc := runningCall_of_callInv hinv hbusy
    refine frameInv_congr (t := { s with mem := s.mem.write a b }) hc rfl
      (fun _ ha => (Move.stores a b hfree).read_input hc ha) rfl rfl (fun c hwords => ?_) hframe hbusy
    have hne : c ≠ a := fun hca => hfree ⟨hbusy, .inr (hc.inOutputWords_iff.1 (hca ▸ hwords))⟩
    exact read_performed_congr _ _ ((Memory.read_write s.mem a b c).trans (if_neg hne))
  | resets => exact frameInv_of_idle rfl

/-- Settles O55: a pixel step adds its own pixel, and no other move touches the words. -/
theorem stepKeepsTheConvertedPart : Obligations.StepKeepsTheConvertedPart :=
  fun s _ hinv hbench hlatch hframe h =>
    frameInv_of_move (s := taken s) hinv hlatch hframe (move_of_step hbench h)

/-! ### The completed call -/

/-- No call runs with `DONE` set (10_state.md R18). -/
theorem done_of_statusLegal {t : Status} (hlegal : statusLegal t = true) (hbusy : t.busy = true) :
    t.done = false := by
  obtain ⟨busy, done, err, ecode⟩ := t
  revert busy done err ecode
  decide

/-- The frame after the last pixel: every word passed was converted, and `FINISH` has performed the
writes under way. -/
theorem completed_holdsPixel {s v : State} (hv : Visited s v) (hc : RunningCall s) (hlatch : latchInv s)
    (hframe : frameInv s) (hlast : s.pos.yp.toNat + 1 = frameSize s) {p : Nat} (hp : p < frameSize s) :
    holdsPixel (completedCall (nextRow v)) (completedCall (nextRow v)).mem p :=
  holdsPixel_congr (t := completedCall (nextRow v)) (m := settledMem v) hc hv.regs
    (fun _ ha => hv.settledMem_read hc (hc.not_inOutputWords ha)) hv.params hp (fun _ _ => rfl)
    (hv.holdsPixel hc hlatch hframe (by omega))

/-- Settles O56: of the moves of a busy block only the pixel step of the last pixel sets `DONE`. -/
theorem completedCallHoldsTheFrame : Obligations.CompletedCallHoldsTheFrame := by
  intro s t hlegal hinv hbench hlatch hframe hbusy h hdone
  have hundone : s.status.done ≠ true := Bool.eq_false_iff.1 (done_of_statusLegal hlegal hbusy)
  have hc := runningCall_of_callInv (s := taken s) hinv hbusy
  have hmove := move_of_step hbench h
  generalize nextInput s = e at hmove
  cases hmove with
  | returns v => exact absurd hdone hundone
  | awaits => exact absurd hdone hundone
  | performs p ps hcons => exact absurd hdone hundone
  | stores a b hfree => exact absurd hdone hundone
  | operands x r hidle => exact absurd (hidle.symm.trans hbusy) (by decide)
  | converts x r t hidle hx ht => exact absurd (hidle.symm.trans hbusy) (by decide)
  | fails herr hsome => exact absurd hdone Bool.false_ne_true
  | resets => exact absurd hdone Bool.false_ne_true
  | pixel t hbusy ht =>
    obtain hbridged | ⟨v, hv, hadv⟩ := pixelStep_next hc ht
    · rw [hbridged.status] at hdone
      exact absurd hdone Bool.false_ne_true
    · cases hadv with
      | pixel hx => exact absurd (hv.status ▸ hdone : (taken s).status.done = true) hundone
      | row hx hi => exact absurd (hv.status ▸ hdone : (taken s).status.done = true) hundone
      | last hx hi => exact ⟨rfl, fun p hp => completed_holdsPixel hv hc hlatch hframe
          (hc.yp_add_one_of_frameEnd hx hi) hp⟩

/-! ### A memory that answers at once -/

/-- What every way on from a visited pixel has in common. -/
theorem Advanced.frame {s v t : State} (hadv : Advanced s v t) :
    t.regs = v.regs ∧ t.inputs = v.inputs ∧ t.bench = v.bench ∧ t.ret = v.ret ∧
    t.answers <:+ v.answers ∧ t.pos.yp = v.pos.yp + 1#64 := by
  cases hadv with
  | pixel hx => exact ⟨rfl, rfl, rfl, rfl, List.suffix_rfl, rfl⟩
  | row hx hi => exact ⟨rfl, rfl, rfl, rfl, List.suffix_rfl, rfl⟩
  | last hx hi => exact ⟨rfl, rfl, rfl, rfl, List.drop_suffix _ _, rfl⟩

/-- With nothing outstanding there is nothing left to perform at the end. -/
theorem Advanced.of_settled {s v t : State} (hadv : Advanced s v t) (hnone : v.outstanding = []) :
    t.outstanding = [] ∧ t.mem = v.mem := by
  cases hadv with
  | pixel hx => exact ⟨hnone, rfl⟩
  | row hx hi => exact ⟨hnone, rfl⟩
  | last hx hi =>
    refine ⟨rfl, ?_⟩
    change performed v.params.endian v.outstanding v.mem = v.mem
    rw [hnone, performed_nil]

/-- After a visited pixel the call runs on, or it was the last pixel and the call is complete. -/
theorem Advanced.runs_or_completes {s v t : State} (hadv : Advanced s v t) (hc : RunningCall s)
    (hv : Visited s v) :
    (RunningCall t ∧ t.status = s.status) ∨
    (s.pos.yp.toNat + 1 = frameSize s ∧ t.status = statusDone) := by
  cases hadv with
  | pixel hx => exact .inl ⟨runningCall_nextPixel hc hv hx, hv.status⟩
  | row hx hi => exact .inl ⟨runningCall_nextRow hc hv hx hi, hv.status⟩
  | last hx hi => exact .inr ⟨hc.yp_add_one_of_frameEnd hx hi, rfl⟩

/-- A pixel step with no answer listed visits its pixel: no access can fail. -/
theorem pixelStep_of_no_answers {s : State} (hc : RunningCall s) (hanswers : s.answers = []) :
    ∃ v t, pixelStep s = .next t ∧ Visited s v ∧ Advanced s v t := by
  obtain ⟨t, hpixel, hbridged | ⟨v, hv, hadv⟩⟩ := pixelStep_outcome hc
  · obtain ⟨-, hmem⟩ := hbridged.listed
    simp [hanswers] at hmem
  · exact ⟨v, t, hpixel, hv, hadv⟩

/-- Settles O33: the one store of the step is that of its pixel's word, and it is done at once. -/
theorem pixelStepWritesTheConvertedWord : Obligations.PixelStepWritesTheConvertedWord := by
  intro s hinv hlatch hbusy hanswers hnone
  have hc := runningCall_of_callInv hinv hbusy
  obtain ⟨v, t, hpixel, hv, hadv⟩ := pixelStep_of_no_answers hc hanswers
  obtain ⟨hregs, hinputs, -, hret, -, hyp⟩ := hadv.frame
  obtain ⟨w, hword, ⟨hmem, hvnone⟩ | ⟨hlisted, -⟩⟩ := hv.store
  case inr => exact absurd hanswers hlisted
  obtain ⟨htnone, htmem⟩ := hadv.of_settled (hvnone.trans hnone)
  have hstored : t.mem = s.mem.writeWord s.params.endian (outputAddress s) (convertWord s s.pos.yp.toNat) := by
    rw [htmem, hmem, hword hlatch]
  have hnext : t.pos.yp.toNat = s.pos.yp.toNat + 1 := by rw [hyp, hv.yp, hc.yp_succ]
  refine ⟨t, hpixel, fun k hk => ?_, fun a ha => ?_, hnext, hregs.trans hv.regs, htnone,
    hret.trans hv.ret, hinputs.trans hv.inputs, ?_⟩
  · rw [hstored, Memory.read_writeWord_inside _ _ _ _ _ hk]
  · rw [hstored, Memory.read_writeWord_outside _ _ _ _ _ ha]
  · obtain ⟨-, hsame⟩ | ⟨hlast, hdone⟩ := hadv.runs_or_completes hc hv
    · exact .inl hsame
    · exact .inr ⟨hnext.trans hlast, by rw [hdone, statusWord_statusDone]⟩

/-! ### The number of steps -/

/-- A call left to itself: a running call with nothing on the bench, no input and no answer listed. -/
structure Undisturbed (s : State) : Prop where
  running : RunningCall s
  bench : s.bench = none
  inputs : s.inputs = []
  answers : s.answers = []

/-- Left to itself, a call moves on by one pixel, or it was the last and the call completes. -/
theorem Undisturbed.step {s : State} (hs : Undisturbed s) :
    ∃ t, Machine.step s = .next t ∧
      ((Undisturbed t ∧ frameSize t = frameSize s ∧ t.pos.yp.toNat = s.pos.yp.toNat + 1) ∨
        (s.pos.yp.toNat + 1 = frameSize s ∧ t.status = statusDone)) := by
  have hc := hs.running
  obtain ⟨v, t, hpixel, hv, hadv⟩ := pixelStep_of_no_answers hc hs.answers
  obtain ⟨hregs, hinputs, hbench, -, hanswers, hyp⟩ := hadv.frame
  have hstep : Machine.step s = pixelStep s :=
    (step_of_nil hs.bench hs.inputs).trans (sequencerTurn_of_busy hc.busy)
  refine ⟨t, hstep.trans hpixel, ?_⟩
  obtain ⟨hrun, -⟩ | hlast := hadv.runs_or_completes hc hv
  · have hnone : t.answers = [] := by
      have hsuffix := hanswers.trans hv.answers
      rwa [hs.answers, List.suffix_nil] at hsuffix
    exact .inl ⟨⟨hrun, hbench.trans (hv.bench.trans hs.bench),
      hinputs.trans (hv.inputs.trans hs.inputs), hnone⟩, frameSize_congr (hregs.trans hv.regs),
      by rw [hyp, hv.yp, hc.yp_succ]⟩
  · exact .inr hlast

/-- A run goes on from a next state. -/
theorem run_succ_of_step (M : Host.Core) {s t : M.State} (h : M.step s = .next t) (k : Nat) :
    M.run (k + 1) s = M.run k t := by
  rw [Host.Core.run, h]

theorem run_succ {s t : State} (h : step s = .next t) (k : Nat) :
    Sys2Proof.core.run (k + 1) s = Sys2Proof.core.run k t :=
  run_succ_of_step Sys2Proof.core h k

/-- A call left to itself takes one step for each pixel still to visit, by induction on their number. -/
theorem Undisturbed.run (k : Nat) : ∀ {s : State}, Undisturbed s →
    frameSize s = s.pos.yp.toNat + (k + 1) →
    (∃ t, Sys2Proof.core.run (k + 1) s = .next t ∧ t.status = statusDone) ∧
    ∀ n < k + 1, ∃ u, Sys2Proof.core.run n s = .next u ∧ u.status.busy = true := by
  induction k with
  | zero =>
    intro s hs hleft
    obtain ⟨t, hstep, ⟨ht, hframe, hyp⟩ | ⟨-, hdone⟩⟩ := hs.step
    · have hlt := ht.running.yp_lt
      omega
    · refine ⟨⟨t, run_succ hstep 0, hdone⟩, fun n hn => ?_⟩
      obtain rfl : n = 0 := by omega
      exact ⟨s, rfl, hs.running.busy⟩
  | succ k ih =>
    intro s hs hleft
    obtain ⟨t, hstep, ⟨ht, hframe, hyp⟩ | ⟨hlast, -⟩⟩ := hs.step
    · obtain ⟨⟨u, hrun, hdone⟩, hbefore⟩ := ih ht (by omega)
      refine ⟨⟨u, (run_succ hstep (k + 1)).trans hrun, hdone⟩, fun n hn => ?_⟩
      cases n with
      | zero => exact ⟨s, rfl, hs.running.busy⟩
      | succ n =>
        obtain ⟨w, hw, hbusy⟩ := hbefore n (by omega)
        exact ⟨w, (run_succ hstep n).trans hw, hbusy⟩
    · omega

/-- Settles O57: the pixels left are `W·H - YP`, at least one in a running call. -/
theorem callEndsAfterItsPixels : Obligations.CallEndsAfterItsPixels := by
  intro s hinv hbench hbusy hinputs hanswers
  have hc := runningCall_of_callInv hinv hbusy
  have hlt := hc.yp_lt
  obtain ⟨k, hk⟩ : ∃ k, frameSize s - s.pos.yp.toNat = k + 1 :=
    Nat.exists_eq_succ_of_ne_zero (by omega)
  obtain ⟨⟨t, hrun, hdone⟩, hbefore⟩ :=
    Undisturbed.run k ⟨hc, hbench, hinputs, hanswers⟩ (by omega)
  rw [hk]
  exact ⟨t, hrun, by rw [hdone, statusWord_statusDone], hbefore⟩

end Sys2Proof.Machine

/-! PROOFS. No data byte affects the sequence: two states that differ in memory, accumulators and the words
under way go through the pixel step side by side (20_memory.md R55). -/

namespace Sys2Proof.Machine

/-! ### States and outcomes alike but for data -/

/-- Two states alike in all that the sequence shows: data stands in none of the fields compared. -/
structure SameSequence (s t : State) : Prop where
  pos : t.pos = s.pos
  status : t.status = s.status
  answers : t.answers = s.answers
  regs : t.regs = s.regs
  params : t.params = s.params
  addresses : t.outstanding.map Posted.addr = s.outstanding.map Posted.addr

/-- Two accesses that come to the same end. -/
inductive SameReply {α : Type} : Reply α → Reply α → Prop where
  | ok (v w : α) {s t : State} (h : SameSequence s t) : SameReply (.ok v s) (.ok w t)
  | error {s t : State} (h : SameSequence s t) : SameReply (.error s) (.error t)
  | fault (f : Fault) : SameReply (.fault f) (.fault f)

/-- Two operations that come to the same end. -/
inductive SameOutcome : StepOutcome → StepOutcome → Prop where
  | next {s t : State} (h : SameSequence s t) : SameOutcome (.next s) (.next t)
  | fault (f : Fault) : SameOutcome (.fault f) (.fault f)
  | refused (r : Refusal) : SameOutcome (.refused r) (.refused r)

namespace SameSequence

variable {s t : State} (h : SameSequence s t)
include h

theorem answer : Machine.answer t = Machine.answer s := by
  rw [Machine.answer, h.answers, h.params, Machine.answer]

theorem answered : SameSequence (Machine.answered s) (Machine.answered t) :=
  ⟨h.pos, h.status, congrArg List.tail h.answers, h.regs, h.params, h.addresses⟩

theorem raiseBridge : SameSequence (Machine.raiseBridge s) (Machine.raiseBridge t) :=
  ⟨h.pos, rfl, h.answers, h.regs, h.params, rfl⟩

/-- Data written to the accumulators and to memory. -/
theorem data (c d : Accumulator) (m n : Memory) :
    SameSequence { s with acc := c, mem := m } { t with acc := d, mem := n } :=
  ⟨h.pos, h.status, h.answers, h.regs, h.params, h.addresses⟩

/-- The same move of the position. -/
theorem move (p : Position) : SameSequence { s with pos := p } { t with pos := p } :=
  ⟨rfl, h.status, h.answers, h.regs, h.params, h.addresses⟩

theorem rowStart : SameSequence (Machine.rowStart s) (Machine.rowStart t) := by
  refine ⟨?_, h.status, h.answers, h.regs, h.params, h.addresses⟩
  rw [rowStart_pos, rowStart_pos, h.pos, h.regs]

theorem nextPixel : SameSequence (Machine.nextPixel s) (Machine.nextPixel t) := by
  rw [Machine.nextPixel, Machine.nextPixel, h.pos]
  exact h.move _

theorem nextRow : SameSequence (Machine.nextRow s) (Machine.nextRow t) := by
  rw [Machine.nextRow, Machine.nextRow, h.pos]
  exact h.move _

end SameSequence

/-! ### The accesses -/

/-- A read comes to the same end whatever the byte is. -/
theorem sameReply_memRead {s t : State} (h : SameSequence s t) (a : Nat) :
    SameReply (memRead a s) (memRead a t) := by
  unfold memRead
  rw [h.params, h.answer]
  split
  · split
    · exact .error h.answered
    · exact .ok _ _ h.answered
  · exact .fault _

/-- A write comes to the same end whatever the word is. -/
theorem sameReply_memWrite {s t : State} (h : SameSequence s t) (a : Nat) (w x : Word) :
    SameReply (memWrite a w s) (memWrite a x t) := by
  unfold memWrite
  rw [h.params, h.answer]
  split
  · exact .fault _
  split
  · exact .fault _
  split
  · exact .error h.answered
  · refine .ok _ _ ⟨h.pos, h.status, h.answered.answers, h.regs, h.params, ?_⟩
    simp [h.addresses]
  · exact .ok _ _ (h.answered.data s.acc t.acc _ _)

/-- The wait of `FINISH` comes to the same end whatever the words are, by induction on the writes. -/
theorem sameReply_awaitWrites (ps qs : List Posted) (hpq : qs.map Posted.addr = ps.map Posted.addr)
    {s t : State} (h : SameSequence s t) : SameReply (awaitWrites ps s) (awaitWrites qs t) := by
  induction ps generalizing qs s t with
  | nil =>
    obtain rfl : qs = [] := by simpa using hpq
    exact .ok _ _ ⟨h.pos, h.status, h.answers, h.regs, h.params, rfl⟩
  | cons p ps ih =>
    cases qs with
    | nil => simp at hpq
    | cons q qs =>
      have hrest : qs.map Posted.addr = ps.map Posted.addr := (List.cons.inj hpq).2
      unfold awaitWrites
      rw [h.answer]
      split
      · exact .error h.answered
      · exact ih qs hrest (h.answered.data s.acc t.acc _ _)

/-- What follows two accesses that come to the same end. -/
theorem SameReply.andThen {α : Type} {r q : Reply α} (h : SameReply r q) {k l : α → State → StepOutcome}
    (hk : ∀ v w s t, SameSequence s t → SameOutcome (k v s) (l w t)) :
    SameOutcome (r.andThen k) (q.andThen l) := by
  cases h with
  | ok v w hst => exact hk v w _ _ hst
  | error hst => exact .next hst.raiseBridge
  | fault f => exact .fault f

/-! ### The micro-operations of a pixel -/

section Operations

variable {s t : State} (h : SameSequence s t)
include h

theorem sameOutcome_finishCall : SameOutcome (finishCall s) (finishCall t) :=
  (sameReply_awaitWrites s.outstanding t.outstanding h.addresses h).andThen fun _ _ _ _ hu =>
    .next ⟨hu.pos, rfl, hu.answers, hu.regs, hu.params, hu.addresses⟩

theorem sameOutcome_execAdv : SameOutcome (execAdv s) (execAdv t) := by
  obtain hx | hx := lt_or_ge (s.pos.x.toNat + 1) s.regs.width.toNat
  · rw [execAdv_of_lt hx, execAdv_of_lt (s := t) (by rw [h.pos, h.regs]; exact hx)]
    exact .next h.nextPixel
  obtain hi | hi := lt_or_ge (s.pos.i + 1#32).toNat s.regs.height.toNat
  · rw [execAdv_of_rowEnd hx hi, execAdv_of_rowEnd (s := t) (by rw [h.pos, h.regs]; exact hx)
      (by rw [h.pos, h.regs]; exact hi)]
    exact .next h.nextRow.rowStart
  · rw [execAdv_of_frameEnd hx hi, execAdv_of_frameEnd (s := t) (by rw [h.pos, h.regs]; exact hx)
      (by rw [h.pos, h.regs]; exact hi)]
    exact sameOutcome_finishCall h.nextRow

theorem sameOutcome_ldy : SameOutcome (exec .ldy s) (exec .ldy t) := by
  have haddr : lumaAddress t = lumaAddress s := by rw [lumaAddress, h.regs, h.pos, lumaAddress]
  rw [exec_ldy, exec_ldy, haddr]
  exact (sameReply_memRead h _).andThen fun _ _ u w hu => .next (hu.data _ _ u.mem w.mem)

theorem sameOutcome_ldvu : SameOutcome (exec .ldvu s) (exec .ldvu t) := by
  have haddr : chromaAddress t = chromaAddress s := by
    rw [chromaAddress, h.regs, h.pos, chromaAddress]
  obtain hx | hx := Nat.mod_two_eq_zero_or_one s.pos.x.toNat
  · rw [exec_ldvu_of_even hx, exec_ldvu_of_even (s := t) (by rw [h.pos]; exact hx), haddr]
    refine (sameReply_memRead h _).andThen fun _ _ u w hu => ?_
    refine (sameReply_memRead (hu.data _ _ u.mem w.mem) _).andThen fun _ _ y z hy => ?_
    rw [hy.pos]
    exact .next ⟨rfl, hy.status, hy.answers, hy.regs, hy.params, hy.addresses⟩
  · rw [exec_ldvu_of_odd hx, exec_ldvu_of_odd (s := t) (by rw [h.pos]; exact hx)]
    exact .next h

theorem sameOutcome_stw : SameOutcome (exec .stw s) (exec .stw t) := by
  rw [exec_stw, exec_stw, outputAddress_congr h.regs (by rw [h.pos])]
  exact (sameReply_memWrite h _ _ _).andThen fun _ _ _ _ hu => .next hu

/-- Every micro-operation of a pixel: the accesses and `ADV` by their rules, the datapath writes data
only. -/
theorem sameOutcome_exec {i : Instr} (hi : i ∈ pixelSequence) : SameOutcome (exec i s) (exec i t) := by
  cases i
  case ldy => exact sameOutcome_ldy h
  case ldvu => exact sameOutcome_ldvu h
  case stw => exact sameOutcome_stw h
  case adv => exact sameOutcome_execAdv h
  case ped | bias | matr | matg | matb | descale | clamp | pack =>
    exact .next (h.data _ _ s.mem t.mem)
  all_goals simp [pixelSequence] at hi

end Operations

/-- A sequence of micro-operations that each come to the same end does so too. -/
theorem sameOutcome_runSequence (is : List Instr) (his : ∀ i ∈ is, i ∈ pixelSequence) {s t : State}
    (h : SameSequence s t) : SameOutcome (runSequence is s) (runSequence is t) := by
  induction is generalizing s t with
  | nil => exact .next h
  | cons i is ih =>
    have hexec := sameOutcome_exec h (his i List.mem_cons_self)
    unfold runSequence
    generalize exec i s = o at hexec
    generalize exec i t = q at hexec
    cases hexec with
    | fault f => exact .fault f
    | refused r => exact .refused r
    | next hu =>
      simp only [hu.status]
      split
      · exact ih (fun j hj => his j (List.mem_cons_of_mem i hj)) hu
      · exact .next hu

/-- Settles O41: the pixel step is one such sequence. -/
theorem dataNeverAffectsTheSequence : Obligations.DataNeverAffectsTheSequence := by
  intro s t m a hpixel
  have hstart : SameSequence s { s with mem := m, acc := a } := ⟨rfl, rfl, rfl, rfl, rfl, rfl⟩
  have hsame : SameOutcome (pixelStep s) (pixelStep { s with mem := m, acc := a }) :=
    sameOutcome_runSequence pixelSequence (fun _ hi => hi) hstart
  rw [hpixel] at hsame
  generalize hu : pixelStep { s with mem := m, acc := a } = o at hsame
  cases hsame with
  | next h => exact ⟨_, rfl, h.pos, h.status, h.answers, h.regs, h.addresses⟩

end Sys2Proof.Machine
